-- ==== Sys2Proof/Word.lean ====
section
/-! DEFINITION. The two widths of the Swift6502 CORE (00_scope.md R5, R7): `u8` and `u16`.
`+` and `-` on them are modulo 256 and modulo 65536, which is what BitVec's are. -/

namespace Sys2Proof

/-- `u8`: data, opcodes and zero-page addresses (00_scope.md R5, R7). -/
abbrev Byte := BitVec 8

/-- `u16`: addresses, PC and SP (00_scope.md R5, R7). -/
abbrev Word := BitVec 16

end Sys2Proof
end

