-- ==== Sys2Proof/Syntax.lean ====
section
/-! DEFINITION. The instructions: one constructor of `Instr` per row of spec/opcode_table.json, and the
two enumerations an opcode byte selects from (30_encoding.md R38). -/

namespace Sys2Proof

/-- The spec's Instruction enumeration, "exactly {LDA, JSR}" by default (00_scope.md R2, R6; 30_encoding.md R39). -/
inductive Operation where
  /-- Load accumulator. -/
  | lda
  /-- Jump to subroutine. -/
  | jsr
  deriving DecidableEq, Repr

/-- Every Operation, for the decoder's look-up. -/
def Operation.all : List Operation := [.lda, .jsr]

/-- The eight wired addressing modes (30_encoding.md R40). The four reserved modes are not representable, as
41_addressing_modes.md R69 asks. -/
inductive AddrMode where
  /-- `(zz,X)`, indexed indirect. -/
  | indX
  /-- `zz`, zero page. -/
  | zp
  /-- `#nn`, immediate. -/
  | imm
  /-- `hhll`, absolute. -/
  | abs
  /-- `(zz),Y`, indirect indexed. -/
  | indY
  /-- `zz,X`, zero page indexed by X. -/
  | zpX
  /-- `hhll,Y`, absolute indexed by Y. -/
  | absY
  /-- `hhll,X`, absolute indexed by X. -/
  | absX
  deriving DecidableEq, Repr

/-- Every wired mode, for the decoder's look-up. -/
def AddrMode.all : List AddrMode := [.indX, .zp, .imm, .abs, .indY, .zpX, .absY, .absX]

/-- One constructor per row of spec/opcode_table.json. An operand is the value the operand bytes assemble to
(30_encoding.md R46): `nn` or `zz` a byte, `hh:ll` a word. The seven JSR rows that have no handler consume no
operand byte (R45, 60_exceptions.md R87), so they carry none. -/
inductive Instr where
  /-- 0xA1 `LDA ($zz,X)`, R78. -/
  | ldaIndX (zz : Byte)
  /-- 0xA5 `LDA $zz`, R73. -/
  | ldaZp (zz : Byte)
  /-- 0xA9 `LDA #$nn`, R72. -/
  | ldaImm (nn : Byte)
  /-- 0xAD `LDA $hhll`, R75. -/
  | ldaAbs (addr : Word)
  /-- 0xB1 `LDA ($zz),Y`, R79. -/
  | ldaIndY (zz : Byte)
  /-- 0xB5 `LDA $zz,X`, R74. -/
  | ldaZpX (zz : Byte)
  /-- 0xB9 `LDA $hhll,Y`, R77. -/
  | ldaAbsY (base : Word)
  /-- 0xBD `LDA $hhll,X`, R76. -/
  | ldaAbsX (base : Word)
  /-- 0x2D `JSR $hhll`, R80. -/
  | jsrAbs (target : Word)
  /-- 0x21: decodes to (JSR, (ind,X)), no handler for the mode, R86. -/
  | jsrIndX
  /-- 0x25: decodes to (JSR, zp), no handler for the mode, R86. -/
  | jsrZp
  /-- 0x29: decodes to (JSR, imm), no handler for the mode, R86. -/
  | jsrImm
  /-- 0x31: decodes to (JSR, (ind),Y), no handler for the mode, R86. -/
  | jsrIndY
  /-- 0x35: decodes to (JSR, zp,X), no handler for the mode, R86. -/
  | jsrZpX
  /-- 0x39: decodes to (JSR, abs,Y), no handler for the mode, R86. -/
  | jsrAbsY
  /-- 0x3D: decodes to (JSR, abs,X), no handler for the mode, R86. -/
  | jsrAbsX
  deriving DecidableEq, Repr

end Sys2Proof
end

