-- ==== Sys2Proof/Config.lean ====
section
/-! DEFINITION. The configuration: the four parameters of 00_scope.md R6, which are not state (10_state.md R12).
Their default values are `Params.standard` in Decode.lean. 93_implementation_defined.md leaves no case as 'any
value', so there is no free value here. -/

namespace Sys2Proof

/-- Where (ind,X) and (ind),Y read the high byte of a pointer whose low byte is at 0x00FF (00_scope.md R6,
41_addressing_modes.md R58). -/
inductive ZpPtrWrap where
  /-- From 0x0000, the default. -/
  | page
  /-- From 0x0100. -/
  | linear
  deriving DecidableEq, Repr

/-- The parameters of 00_scope.md R6. -/
structure Params where
  /-- `INSTR_CODE`: the byte value of each Instruction. -/
  instrCode : Operation → Byte
  /-- `MODE_CODE`: the byte value of each wired AddressingMode. -/
  modeCode : AddrMode → Byte
  /-- `ZP_PTR_WRAP`. -/
  zpPtrWrap : ZpPtrWrap
  /-- `HANDLED`: the instructions that have an execution handler. -/
  handled : List Operation

end Sys2Proof
end

