-- ==== Sys2Proof/WellFormed.lean ====
section
/-! DEFINITION. Well-formedness. A term of `Instr` needs no check: the width of every operand is in its type and
every (operation, mode) pair of the table has its constructor. What can be ill-formed is a configuration:
00_scope.md R6 puts four constraints on INSTR_CODE and MODE_CODE, and each is a check here. -/

namespace Sys2Proof

/-- `INSTR_CODE` is injective (00_scope.md R6). -/
def Params.instrCodesDistinct (p : Params) : Bool :=
  Operation.all.all fun i => Operation.all.all fun j => i == j || p.instrCode i != p.instrCode j

/-- Every `INSTR_CODE` has bits 4..0 equal to zero (00_scope.md R6). -/
def Params.instrCodesInField (p : Params) : Bool :=
  Operation.all.all fun i => p.instrCode i &&& 0x1F == 0

/-- `MODE_CODE` is injective (00_scope.md R6). -/
def Params.modeCodesDistinct (p : Params) : Bool :=
  AddrMode.all.all fun m => AddrMode.all.all fun n => m == n || p.modeCode m != p.modeCode n

/-- Every `MODE_CODE` has bits 7..5 equal to zero (00_scope.md R6). -/
def Params.modeCodesInField (p : Params) : Bool :=
  AddrMode.all.all fun m => p.modeCode m &&& 0xE0 == 0

/-- The constraints of 00_scope.md R6 on values other than the defaults. -/
def Params.wellFormed (p : Params) : Bool :=
  p.instrCodesDistinct && p.instrCodesInField && p.modeCodesDistinct && p.modeCodesInField

end Sys2Proof
end

