-- ==== Sys2Proof/Decode.lean ====
section
/-! DEFINITION. Byte order, the code tables, the opcode decoder and encoder (30_encoding.md R38 to R46), and over
them the decoder from bytes to `Instr` and its inverse. -/

namespace Sys2Proof

/-! ### Byte order and extension -/

/-- `v[7:0]` of a u16 (00_scope.md R7). -/
def loByte (w : Word) : Byte := w.extractLsb' 0 8

/-- `v[15:8]` of a u16 (00_scope.md R7). -/
def hiByte (w : Word) : Byte := w.extractLsb' 8 8

/-- `hi:lo`, the u16 `hi * 256 + lo` (00_scope.md R7). -/
def hiLo (hi lo : Byte) : Word := hi ++ lo

/-- `zext_16` (00_scope.md R7). -/
def zext16 (b : Byte) : Word := b.setWidth 16

/-! ### The code tables -/

/-- The default `INSTR_CODE` (30_encoding.md R39, decision D1; log 5). -/
def defaultInstrCode : Operation → Byte
  | .lda => 0b101_00000
  | .jsr => 0b001_00000

/-- The default `MODE_CODE` (30_encoding.md R40, decision D2; log 6). -/
def defaultModeCode : AddrMode → Byte
  | .indX => 0b00001
  | .zp => 0b00101
  | .imm => 0b01001
  | .abs => 0b01101
  | .indY => 0b10001
  | .zpX => 0b10101
  | .absY => 0b11001
  | .absX => 0b11101

/-- The default `ZP_PTR_WRAP` (00_scope.md R6, decision D8; log 7). -/
def defaultZpPtrWrap : ZpPtrWrap := .page

/-- The default `HANDLED` (00_scope.md R6, decision D4; log 8). -/
def defaultHandled : List Operation := [.lda, .jsr]

/-- The default values of 00_scope.md R6, which every test vector of the spec and `step` use. -/
def Params.standard : Params where
  instrCode := defaultInstrCode
  modeCode := defaultModeCode
  zpPtrWrap := defaultZpPtrWrap
  handled := defaultHandled

/-! ### The opcode byte -/

/-- `lookupI` of 30_encoding.md R41: the Instruction whose code is the byte. -/
def lookupI (p : Params) (b : Byte) : Option Operation :=
  Operation.all.find? fun i => p.instrCode i == b

/-- `lookupM` of 30_encoding.md R41: the AddressingMode whose code is the byte. -/
def lookupM (p : Params) (b : Byte) : Option AddrMode :=
  AddrMode.all.find? fun m => p.modeCode m == b

/-- `decode(op)` of 30_encoding.md R41: each half on its own field, `none` where there is no match. -/
def decodeOp (p : Params) (op : Byte) : Option Operation × Option AddrMode :=
  (lookupI p (op &&& 0xE0), lookupM p (op &&& 0x1F))

/-- `encode(i, m)` of 30_encoding.md R42, the host-visible helper. -/
def encodeOp (p : Params) (i : Operation) (m : AddrMode) : Byte :=
  p.instrCode i ||| p.modeCode m

/-! ### Instructions and bytes -/

/-- The instruction half of an instruction's opcode. -/
def Instr.operation : Instr → Operation
  | .ldaIndX _ => .lda
  | .ldaZp _ => .lda
  | .ldaImm _ => .lda
  | .ldaAbs _ => .lda
  | .ldaIndY _ => .lda
  | .ldaZpX _ => .lda
  | .ldaAbsY _ => .lda
  | .ldaAbsX _ => .lda
  | .jsrAbs _ => .jsr
  | .jsrIndX => .jsr
  | .jsrZp => .jsr
  | .jsrImm => .jsr
  | .jsrIndY => .jsr
  | .jsrZpX => .jsr
  | .jsrAbsY => .jsr
  | .jsrAbsX => .jsr

/-- The mode half of an instruction's opcode. -/
def Instr.mode : Instr → AddrMode
  | .ldaIndX _ => .indX
  | .ldaZp _ => .zp
  | .ldaImm _ => .imm
  | .ldaAbs _ => .abs
  | .ldaIndY _ => .indY
  | .ldaZpX _ => .zpX
  | .ldaAbsY _ => .absY
  | .ldaAbsX _ => .absX
  | .jsrAbs _ => .abs
  | .jsrIndX => .indX
  | .jsrZp => .zp
  | .jsrImm => .imm
  | .jsrIndY => .indY
  | .jsrZpX => .zpX
  | .jsrAbsY => .absY
  | .jsrAbsX => .absX

/-- A 16-bit operand in the instruction stream, low byte first (20_memory.md R29, 30_encoding.md R45). -/
def wordOperand (w : Word) : List Byte := [loByte w, hiByte w]

/-- The operand bytes an instruction consumes (30_encoding.md R45, and R87 for the seven erroring rows). -/
def Instr.operandBytes : Instr → List Byte
  | .ldaIndX zz => [zz]
  | .ldaZp zz => [zz]
  | .ldaImm nn => [nn]
  | .ldaAbs addr => wordOperand addr
  | .ldaIndY zz => [zz]
  | .ldaZpX zz => [zz]
  | .ldaAbsY base => wordOperand base
  | .ldaAbsX base => wordOperand base
  | .jsrAbs target => wordOperand target
  | .jsrIndX => []
  | .jsrZp => []
  | .jsrImm => []
  | .jsrIndY => []
  | .jsrZpX => []
  | .jsrAbsY => []
  | .jsrAbsX => []

/-- How many bytes an instruction consumes, its opcode byte included (30_encoding.md R45). -/
def Instr.length (i : Instr) : Nat := 1 + i.operandBytes.length

/-- Why a byte string is no instruction. -/
inductive DecodeError where
  /-- There is no byte at all. -/
  | noOpcode
  /-- The opcode byte's operand bytes are missing; a fetch from memory never meets this. -/
  | missingOperand (op : Byte)
  /-- One of the 240 bytes with no decode (30_encoding.md R47): the engine raises UnknownOpcode(op). -/
  | unknownOpcode (op : Byte)
  deriving DecidableEq, Repr

/-- What decoding answers: an instruction and the bytes after it, or why there is none. -/
abbrev Decoded := Except DecodeError (Instr × List Byte)

/-- One operand byte, `nn` or `zz` (30_encoding.md R45). -/
def withByte (op : Byte) (f : Byte → Instr) : List Byte → Decoded
  | b :: rest => .ok (f b, rest)
  | [] => .error (.missingOperand op)

/-- Two operand bytes, `ll` then `hh` (30_encoding.md R45, R46). -/
def withWord (op : Byte) (f : Word → Instr) : List Byte → Decoded
  | ll :: hh :: rest => .ok (f (hiLo hh ll), rest)
  | [_] => .error (.missingOperand op)
  | [] => .error (.missingOperand op)

/-- The operand bytes that a decoded (instruction, mode) pair takes. -/
def decodeOperands (op : Byte) (i : Operation) (m : AddrMode) (rest : List Byte) : Decoded :=
  match i, m with
  | .lda, .indX => withByte op .ldaIndX rest
  | .lda, .zp => withByte op .ldaZp rest
  | .lda, .imm => withByte op .ldaImm rest
  | .lda, .abs => withWord op .ldaAbs rest
  | .lda, .indY => withByte op .ldaIndY rest
  | .lda, .zpX => withByte op .ldaZpX rest
  | .lda, .absY => withWord op .ldaAbsY rest
  | .lda, .absX => withWord op .ldaAbsX rest
  | .jsr, .abs => withWord op .jsrAbs rest
  | .jsr, .indX => .ok (.jsrIndX, rest)
  | .jsr, .zp => .ok (.jsrZp, rest)
  | .jsr, .imm => .ok (.jsrImm, rest)
  | .jsr, .indY => .ok (.jsrIndY, rest)
  | .jsr, .zpX => .ok (.jsrZpX, rest)
  | .jsr, .absY => .ok (.jsrAbsY, rest)
  | .jsr, .absX => .ok (.jsrAbsX, rest)

/-- The decoder from bytes, total: an instruction with the rest of the bytes, or a named reason. A `none` in
either half of the opcode is no match (30_encoding.md R41, 60_exceptions.md R84). -/
def decode : List Byte → Decoded
  | [] => .error .noOpcode
  | op :: rest =>
    match decodeOp Params.standard op with
    | (some i, some m) => decodeOperands op i m rest
    | (some _, none) => .error (.unknownOpcode op)
    | (none, some _) => .error (.unknownOpcode op)
    | (none, none) => .error (.unknownOpcode op)

/-- The bytes of an instruction, opcode first (30_encoding.md R42, R45). -/
def encode (i : Instr) : List Byte :=
  encodeOp Params.standard i.operation i.mode :: i.operandBytes

/-- The three bytes that the low `nbits` bits of `w` lay out, the first at the lowest address; every bit above
`nbits` is 0. Three bytes are the longest instruction (30_encoding.md R45). -/
def tableBytes (nbits w : Nat) : List Byte :=
  let v := w % 2 ^ nbits
  [BitVec.ofNat 8 v, BitVec.ofNat 8 (v / 256), BitVec.ofNat 8 (v / 65536)]

/-- The instruction that the decoder reads from the bits `w` as spec/opcode_table.json numbers them. -/
def decodeTableWord (nbits w : Nat) : Option Instr :=
  match decode (tableBytes nbits w) with
  | .ok (i, _) => some i
  | .error _ => none

end Sys2Proof
end

