-- ==== Sys2Proof/Machine/State.lean ====
section
/-! DEFINITION. The state of the engine (10_state.md R12), as plain data, the reasons a step can stop, and the
state after construction and reset (70_reset_and_hazards.md R99). -/

namespace Sys2Proof.Machine

/-- The status register: seven independent flags (10_state.md R17). The byte's reserved bit 5 is constantly 0
(R20), so it has no field; `Flags.statusByte` in Flags.lean gives the whole byte. -/
structure Flags where
  /-- Carry. -/
  C : Bool
  /-- Zero. -/
  Z : Bool
  /-- Interrupt-disable. -/
  I : Bool
  /-- Decimal. -/
  D : Bool
  /-- Break. -/
  B : Bool
  /-- Overflow. -/
  V : Bool
  /-- Negative. -/
  N : Bool
  deriving DecidableEq, Repr

/-- The three typed errors, each with its payload (60_exceptions.md R83). -/
inductive EngineError where
  /-- Decode yielded `none` in either half (R84). -/
  | unknownOpcode (op : Byte)
  /-- The instruction has no handler (R85). -/
  | unhandledInstruction (i : Operation)
  /-- The handler of the instruction does not take the mode (R86). -/
  | unhandledAddressingMode (m : AddrMode)
  deriving DecidableEq, Repr

/-- The outcome of an `execute` call (40_engine.md R55). -/
inductive CallResult where
  /-- The loop ended because `cyc <= 0`. -/
  | ok
  /-- The call ended with an error. -/
  | err (e : EngineError)
  deriving DecidableEq, Repr

/-- What a finished `execute` call gives the host: the outcome and the final `cyc` (40_engine.md R55,
10_state.md R21). -/
structure CallReturn where
  /-- `Ok` or `Err e`. -/
  result : CallResult
  /-- The final `cyc`. -/
  cyc : Int
  deriving DecidableEq, Repr

/-- The engine's mode, with `cyc`, which "has a value only while mode = running" (10_state.md R12, R21, R22). -/
inductive Mode where
  /-- No `execute` call is in progress. -/
  | idle
  /-- Inside an `execute` call with `cyc` cycles remaining, an int that may be negative. -/
  | running (cyc : Int)
  deriving DecidableEq, Repr

/-- The memory bus's contents: the listed (address, byte) cells; any other address reads as
`Memory.unlisted` (Ops.lean). The canonical form is `Memory.wf` (Ops.lean, log 11). -/
abbrev Memory := List Host.Cell

/-- The engine state: the tuple of 10_state.md R12, and `returned`, the model's own output field (log 2). -/
structure State where
  /-- The memory bus, 65536 bytes (20_memory.md R26). -/
  mem : Memory
  /-- Accumulator. -/
  A : Byte
  /-- Index register X. -/
  X : Byte
  /-- Index register Y. -/
  Y : Byte
  /-- Program counter. -/
  PC : Word
  /-- Stack pointer. -/
  SP : Word
  /-- Status register. -/
  P : Flags
  /-- Engine mode and, while running, the remaining-cycle count. -/
  mode : Mode
  /-- What the last finished call reported to the host; none before the first return and while a call runs. -/
  returned : Option CallReturn
  deriving DecidableEq, Repr

/-- Why the machine stops with a fault. The spec has no stop of its own: its three errors return to the host with a
state (60_exceptions.md R89), so they are next states. -/
inductive Fault where
  /-- Raised by every meaning that is entered while the engine is idle: a handler runs only inside an `execute`
  call (40_engine.md R49) and has no `cyc` to charge outside one. Safe: `step` never enters one then (log 3). -/
  | noCallInProgress
  deriving DecidableEq, Repr

/-- Why the model gives no meaning. -/
inductive Refusal where
  /-- Raised by `exec` for an instruction not yet modelled; no arm raises it in this model. Safe. -/
  | notModelled (mnemonic : String)
  /-- Raised by `hostAct` when the engine is running: "The host cannot act while mode = running" (10_state.md R24).
  Safe: the spec says that no such action exists (log 12). -/
  | hostActsOnlyWhileIdle
  deriving DecidableEq, Repr

/-- The status register after construction and reset: all flags 0 (10_state.md R19, R99). -/
def Flags.reset : Flags :=
  { C := false, Z := false, I := false, D := false, B := false, V := false, N := false }

/-- The state after `new()` and after `reset()` (70_reset_and_hazards.md R99, R100): memory lists nothing, so every
byte reads 0x00. `returned` is the model's own field and holds nothing (log 2). -/
def State.reset : State :=
  { mem := []
    A := 0x00
    X := 0x00
    Y := 0x00
    PC := 0xFFFC
    SP := 0x0100
    P := Flags.reset
    mode := .idle
    returned := none }

end Sys2Proof.Machine
end

