-- ==== Sys2Proof/Machine/Ops.lean ====
section
/-! DEFINITION. The named operations over memory and registers: the primitives of 00_scope.md R8, the two-byte push
of 20_memory.md R33, and the raising of an error (60_exceptions.md R89) with the start of a call, by which a run
resumes after one (R90). -/

namespace Sys2Proof.Machine

/-! ### Memory as a canonical list -/

/-- What an address that no write has reached since construction or reset reads as (20_memory.md R27). -/
def Memory.unlisted : Byte := 0x00

/-- The byte at an address. -/
def Memory.read : Memory → Nat → Byte
  | [], _ => Memory.unlisted
  | (k, v) :: rest, a => if k = a then v else Memory.read rest a

/-- Forget every cell at an address. -/
def Memory.erase (m : Memory) (a : Nat) : Memory := m.filter fun cell => cell.1 != a

/-- Put a cell before the first one at a higher address. -/
def Memory.insertCell (a : Nat) (v : Byte) : Memory → Memory
  | [] => [(a, v)]
  | (k, w) :: rest => if a < k then (a, v) :: (k, w) :: rest else (k, w) :: Memory.insertCell a v rest

/-- Store a byte, keeping the canonical form: the value an unlisted address reads as is not listed. -/
def Memory.write (m : Memory) (a : Nat) (v : Byte) : Memory :=
  if v = Memory.unlisted then m.erase a else Memory.insertCell a v (m.erase a)

/-- Every address of the list is at least `lo` and they rise strictly. -/
def Memory.risingFrom (lo : Nat) : Memory → Bool
  | [] => true
  | (k, _) :: rest => decide (lo ≤ k) && Memory.risingFrom (k + 1) rest

/-- The canonical form: addresses strictly rising and inside the 64 KiB space (20_memory.md R26), and no cell that
holds what an unlisted address reads as. -/
def Memory.wf (m : Memory) : Bool :=
  Memory.risingFrom 0 m && m.all fun cell => decide (cell.1 < 65536) && (cell.2 != Memory.unlisted)

/-! ### The bus, the counter and the instruction stream -/

/-- `MemRead(addr, 1)`: no side effect, no cycle (00_scope.md R8, 20_memory.md R27). -/
def memRead (addr : Word) (s : State) : Byte := s.mem.read addr.toNat

/-- `MemWrite(addr, 1, v)`: one byte changes, no cycle (00_scope.md R8, 20_memory.md R27). -/
def memWrite (addr : Word) (v : Byte) (s : State) : State :=
  { s with mem := s.mem.write addr.toNat v }

/-- `cyc`, which has a value only while the engine runs (10_state.md R12, R21). -/
def State.cyc (s : State) : Option Int :=
  match s.mode with
  | .idle => none
  | .running c => some c

/-- `cyc <- cyc - n` (00_scope.md R8). An idle engine has no count to charge. -/
def Mode.charge (n : Int) : Mode → Mode
  | .idle => .idle
  | .running c => .running (c - n)

/-- `Charge(n)` (00_scope.md R8). -/
def charge (n : Int) (s : State) : State := { s with mode := s.mode.charge n }

/-- What `FetchByte()` does to the state: PC advances by 1 modulo 65536 and one cycle is charged
(00_scope.md R8, 10_state.md R14). -/
def advance (s : State) : State := charge 1 { s with PC := s.PC + 1 }

/-- `FetchByte()` (00_scope.md R8): one byte of the instruction stream. -/
def fetchByte (s : State) : Byte × State := (memRead s.PC s, advance s)

/-- `ReadByte(addr)` (00_scope.md R8): one data read cycle. -/
def readByte (addr : Word) (s : State) : Byte × State := (memRead addr s, charge 1 s)

/-! ### The stack -/

/-- Where a push from stack pointer `sp` puts the low byte: `SP - 2`, wrapping (20_memory.md R33; log 15). -/
def pushLoAddr (sp : Word) : Word := sp - 2

/-- Where a push from stack pointer `sp` puts the high byte: `SP - 1`, wrapping (20_memory.md R33; log 15). -/
def pushHiAddr (sp : Word) : Word := sp - 1

/-- The two-byte push of 20_memory.md R33: low byte first, then the high byte, then SP falls by 2. -/
def push16 (v : Word) (s : State) : State :=
  let s1 := memWrite (pushLoAddr s.SP) (loByte v) s
  let s2 := memWrite (pushHiAddr s.SP) (hiByte v) s1
  { s2 with SP := s.SP - 2 }

/-! ### The start and the end of a call -/

/-- The end of an `execute` call: the engine turns idle and reports the outcome with the final `cyc`
(40_engine.md R49, R55). Nothing else changes. -/
def endCall (r : CallResult) (s : State) : State :=
  { s with
    mode := .idle
    returned :=
      match s.mode with
      | .idle => s.returned
      | .running c => some { result := r, cyc := c } }

/-- `raise e` (00_scope.md R8, 60_exceptions.md R89), the machine's only exception: the call ends at once with
`Err e`. Nothing is saved, no register, flag or memory byte changes, and it vectors nowhere. -/
def raise (e : EngineError) (s : State) : State := endCall (.err e) s

/-- The start of `execute(budget)` (40_engine.md R49): `mode <- running; cyc <- int(budget)`. There is no other
return from an error: a new call resumes at the current PC (60_exceptions.md R90). What the last call reported is
cleared (log 2). -/
def beginCall (budget : BitVec 32) (s : State) : State :=
  { s with mode := .running budget.toNat, returned := none }

/-- The numeric code of an error (60_exceptions.md R83, decision D20; log 19). No interface exposes it. -/
def EngineError.code : EngineError → Nat
  | .unknownOpcode _ => 0
  | .unhandledInstruction _ => 1
  | .unhandledAddressingMode _ => 2

/-- A handler runs only inside an `execute` call (40_engine.md R49): outside one it has no meaning (log 3). -/
def duringCall (s t : State) : Host.Outcome State Fault Refusal :=
  match s.mode with
  | .idle => .fault .noCallInProgress
  | .running _ => .next t

end Sys2Proof.Machine
end

