-- ==== Sys2Proof/Machine/Operands.lean ====
section
/-! DEFINITION. The addressing-mode resolver (41_addressing_modes.md R56 to R68), from the point where the operand
bytes have been consumed. Each form takes the operand, reads what its rule reads in the rule's order, charges what
its rule charges, and gives the operand value with the state. -/

namespace Sys2Proof.Machine

/-- `cross(base, ea)`: the high byte changed (41_addressing_modes.md R57). -/
def cross (base ea : Word) : Bool := hiByte ea != hiByte base

/-- `zp_next(z)`: where the high byte of the zero-page pointer at `z` is read (41_addressing_modes.md R58). -/
def zpNext (w : ZpPtrWrap) (z : Byte) : Word :=
  match w with
  | .page => zext16 (z + 1)
  | .linear => zext16 z + 1

/-- `(zz + X) mod 256`, the zero-page index sum of zp,X and (ind,X) (41_addressing_modes.md R61, R65). -/
def zpIndexed (zz : Byte) (s : State) : Byte := zz + s.X

/-- The 16-bit pointer at zero-page address `z`: low byte, then high byte, one cycle each
(41_addressing_modes.md R65, R66; 20_memory.md R29). -/
def readPointer (w : ZpPtrWrap) (z : Byte) (s : State) : Word × State :=
  let (ll, s1) := readByte (zext16 z) s
  let (hh, s2) := readByte (zpNext w z) s1
  (hiLo hh ll, s2)

/-- Immediate: the operand byte is the value (41_addressing_modes.md R59). -/
def operandImm (nn : Byte) (s : State) : Byte × State := (nn, s)

/-- Zero page (41_addressing_modes.md R60). -/
def operandZp (zz : Byte) (s : State) : Byte × State := readByte (zext16 zz) s

/-- Zero page indexed by X: one cycle for the index addition, which wraps in the page (41_addressing_modes.md R61). -/
def operandZpX (zz : Byte) (s : State) : Byte × State :=
  readByte (zext16 (zpIndexed zz s)) (charge 1 s)

/-- Absolute (41_addressing_modes.md R62). -/
def operandAbs (addr : Word) (s : State) : Byte × State := readByte addr s

/-- Absolute indexed by X: no cycle for the addition or a crossing (41_addressing_modes.md R63; log 14). -/
def operandAbsX (base : Word) (s : State) : Byte × State := readByte (base + zext16 s.X) s

/-- Absolute indexed by Y: as by X (41_addressing_modes.md R64; log 14). -/
def operandAbsY (base : Word) (s : State) : Byte × State := readByte (base + zext16 s.Y) s

/-- Indexed indirect `(zz,X)` (41_addressing_modes.md R65). -/
def operandIndX (w : ZpPtrWrap) (zz : Byte) (s : State) : Byte × State :=
  let (ea, s1) := readPointer w (zpIndexed zz s) (charge 1 s)
  readByte ea s1

/-- Indirect indexed `(zz),Y`: one more cycle when adding Y crosses a page (41_addressing_modes.md R66). -/
def operandIndY (w : ZpPtrWrap) (zz : Byte) (s : State) : Byte × State :=
  let (base, s1) := readPointer w zz s
  let ea := base + zext16 s1.Y
  readByte ea (if cross base ea then charge 1 s1 else s1)

end Sys2Proof.Machine
end

