-- ==== Sys2Proof/Machine/Control.lean ====
section
/-! DEFINITION. Control transfer: JSR (43_control.md R80 to R82), and the seven JSR bytes whose mode the handler
does not take, each of which raises UnhandledAddressingMode (60_exceptions.md R86). A meaning is entered after the
opcode fetch. -/

namespace Sys2Proof.Machine

/-- JSR from the point where its target is resolved (43_control.md R80, R81): push the current PC, which is the
address past the third byte, go to the target, charge the remaining 3 cycles of the fixed 6 (log 16). -/
def jumpToSubroutine (target : Word) (s : State) : State :=
  charge 3 { push16 s.PC s with PC := target }

/-- `JSR $hhll` (43_control.md R80): two operand bytes consumed, one cycle each (41_addressing_modes.md R67). -/
def execJsrAbs (target : Word) (s : State) : Host.Outcome State Fault Refusal :=
  duringCall s (jumpToSubroutine target (advance (advance s)))

/-- The dispatch of a JSR in a mode its handler does not take: raised before any operand byte is fetched
(60_exceptions.md R86, R87). -/
def jsrModeError (m : AddrMode) (s : State) : Host.Outcome State Fault Refusal :=
  duringCall s (raise (.unhandledAddressingMode m) s)

/-- 0x21, (JSR, (ind,X)) (60_exceptions.md R86). -/
def execJsrIndX (s : State) : Host.Outcome State Fault Refusal := jsrModeError .indX s

/-- 0x25, (JSR, zp) (60_exceptions.md R86). -/
def execJsrZp (s : State) : Host.Outcome State Fault Refusal := jsrModeError .zp s

/-- 0x29, (JSR, imm) (60_exceptions.md R86). -/
def execJsrImm (s : State) : Host.Outcome State Fault Refusal := jsrModeError .imm s

/-- 0x31, (JSR, (ind),Y) (60_exceptions.md R86). -/
def execJsrIndY (s : State) : Host.Outcome State Fault Refusal := jsrModeError .indY s

/-- 0x35, (JSR, zp,X) (60_exceptions.md R86). -/
def execJsrZpX (s : State) : Host.Outcome State Fault Refusal := jsrModeError .zpX s

/-- 0x39, (JSR, abs,Y) (60_exceptions.md R86). -/
def execJsrAbsY (s : State) : Host.Outcome State Fault Refusal := jsrModeError .absY s

/-- 0x3D, (JSR, abs,X) (60_exceptions.md R86). -/
def execJsrAbsX (s : State) : Host.Outcome State Fault Refusal := jsrModeError .absX s

end Sys2Proof.Machine
end

