-- ==== Sys2Proof/Machine/Flags.lean ====
section
/-! DEFINITION. Every flag computation the spec gives: the Z and N of a load (42_load.md R70), the flags by name
(10_state.md R17, R24) and the status byte (R18, R20). -/

namespace Sys2Proof.Machine

/-- `P.Z <- (v == 0x00); P.N <- (v[7] == 1)` (42_load.md R70); every other flag stays. -/
def Flags.setZN (v : Byte) (p : Flags) : Flags :=
  { p with Z := decide (v = 0x00), N := v.getLsbD 7 }

/-- The names of the seven flags (10_state.md R17). -/
inductive FlagName where
  /-- Carry. -/
  | carry
  /-- Zero. -/
  | zero
  /-- Interrupt-disable. -/
  | interruptDisable
  /-- Decimal. -/
  | decimal
  /-- Break. -/
  | break
  /-- Overflow. -/
  | overflow
  /-- Negative. -/
  | negative
  deriving DecidableEq, Repr

/-- One flag by name ("individually addressable", 10_state.md R17). -/
def Flags.get (p : Flags) : FlagName → Bool
  | .carry => p.C
  | .zero => p.Z
  | .interruptDisable => p.I
  | .decimal => p.D
  | .break => p.B
  | .overflow => p.V
  | .negative => p.N

/-- Set one flag by name ("independently toggleable", 10_state.md R19). -/
def Flags.set (p : Flags) (f : FlagName) (b : Bool) : Flags :=
  match f with
  | .carry => { p with C := b }
  | .zero => { p with Z := b }
  | .interruptDisable => { p with I := b }
  | .decimal => { p with D := b }
  | .break => { p with B := b }
  | .overflow => { p with V := b }
  | .negative => { p with N := b }

/-- A boolean as a bit of a byte, 1 for true (00_scope.md R7). -/
def bitAt (b : Bool) (i : Nat) : Byte := if b then BitVec.twoPow 8 i else 0

/-- `Pbyte` (10_state.md R18, decision D5; log 9): N V 5 B D I Z C from bit 7 down, bit 5 always 0 (R20). -/
def Flags.statusByte (p : Flags) : Byte :=
  bitAt p.N 7 ||| bitAt p.V 6 ||| bitAt p.B 4 ||| bitAt p.D 3 ||| bitAt p.I 2 ||| bitAt p.Z 1 ||| bitAt p.C 0

end Sys2Proof.Machine
end

