-- ==== Sys2Proof/Machine/Load.lean ====
section
/-! DEFINITION. The load family: LDA in its eight modes (42_load.md R70 to R79). A meaning is entered after the
opcode fetch; it consumes the operand bytes the decoder has read (one `advance` each), resolves and loads. -/

namespace Sys2Proof.Machine

/-- `A <- v; P.Z <- (v == 0x00); P.N <- (v[7] == 1)` for a resolved value (42_load.md R70). -/
def loadA (r : Byte × State) : State := { r.2 with A := r.1, P := r.2.P.setZN r.1 }

/-- `LDA ($zz,X)` (42_load.md R78). -/
def execLdaIndX (zz : Byte) (s : State) : Host.Outcome State Fault Refusal :=
  duringCall s (loadA (operandIndX Params.standard.zpPtrWrap zz (advance s)))

/-- `LDA $zz` (42_load.md R73). -/
def execLdaZp (zz : Byte) (s : State) : Host.Outcome State Fault Refusal :=
  duringCall s (loadA (operandZp zz (advance s)))

/-- `LDA #$nn` (42_load.md R72). -/
def execLdaImm (nn : Byte) (s : State) : Host.Outcome State Fault Refusal :=
  duringCall s (loadA (operandImm nn (advance s)))

/-- `LDA $hhll` (42_load.md R75). -/
def execLdaAbs (addr : Word) (s : State) : Host.Outcome State Fault Refusal :=
  duringCall s (loadA (operandAbs addr (advance (advance s))))

/-- `LDA ($zz),Y` (42_load.md R79). -/
def execLdaIndY (zz : Byte) (s : State) : Host.Outcome State Fault Refusal :=
  duringCall s (loadA (operandIndY Params.standard.zpPtrWrap zz (advance s)))

/-- `LDA $zz,X` (42_load.md R74). -/
def execLdaZpX (zz : Byte) (s : State) : Host.Outcome State Fault Refusal :=
  duringCall s (loadA (operandZpX zz (advance s)))

/-- `LDA $hhll,Y` (42_load.md R77). -/
def execLdaAbsY (base : Word) (s : State) : Host.Outcome State Fault Refusal :=
  duringCall s (loadA (operandAbsY base (advance (advance s))))

/-- `LDA $hhll,X` (42_load.md R76). -/
def execLdaAbsX (base : Word) (s : State) : Host.Outcome State Fault Refusal :=
  duringCall s (loadA (operandAbsX base (advance (advance s))))

end Sys2Proof.Machine
end

