-- ==== Sys2Proof/Machine/Dispatch.lean ====
section
/-! DEFINITION. Dispatch: "an exhaustive match" over the decoded instructions, no default arm (40_engine.md R49). -/

namespace Sys2Proof.Machine

def exec (i : Instr) (s : State) : Host.Outcome State Fault Refusal :=
  match i with
  | .ldaIndX zz => Sys2Proof.Machine.execLdaIndX zz s
  | .ldaZp zz => Sys2Proof.Machine.execLdaZp zz s
  | .ldaImm nn => Sys2Proof.Machine.execLdaImm nn s
  | .ldaAbs addr => Sys2Proof.Machine.execLdaAbs addr s
  | .ldaIndY zz => Sys2Proof.Machine.execLdaIndY zz s
  | .ldaZpX zz => Sys2Proof.Machine.execLdaZpX zz s
  | .ldaAbsY base => Sys2Proof.Machine.execLdaAbsY base s
  | .ldaAbsX base => Sys2Proof.Machine.execLdaAbsX base s
  | .jsrAbs target => Sys2Proof.Machine.execJsrAbs target s
  | .jsrIndX => Sys2Proof.Machine.execJsrIndX s
  | .jsrZp => Sys2Proof.Machine.execJsrZp s
  | .jsrImm => Sys2Proof.Machine.execJsrImm s
  | .jsrIndY => Sys2Proof.Machine.execJsrIndY s
  | .jsrZpX => Sys2Proof.Machine.execJsrZpX s
  | .jsrAbsY => Sys2Proof.Machine.execJsrAbsY s
  | .jsrAbsX => Sys2Proof.Machine.execJsrAbsX s

end Sys2Proof.Machine
end

