-- ==== Sys2Proof/Machine/Loop.lean ====
section
/-! DEFINITION. One pass of the loop of `execute` (40_engine.md R49), and the placing of an instruction where the
next pass fetches it. Step.lean only calls these. -/

namespace Sys2Proof.Machine

/-- The bytes at PC, PC+1 and PC+2, modulo 65536: the longest instruction (30_encoding.md R45, 20_memory.md R30).
A read has no side effect (20_memory.md R31), so reading operand bytes the instruction does not have changes
nothing, and no write can come between the opcode fetch and the operand fetches (log 21). -/
def fetchWindow (s : State) : List Byte :=
  [memRead s.PC s, memRead (s.PC + 1) s, memRead (s.PC + 2) s]

/-- After the opcode fetch, the checks in the order of 40_engine.md R51: decode, then the existence of a handler,
then, in `exec`, the mode and the handler's own effects. -/
def dispatchDecoded (d : Decoded) (op : Byte) (s : State) : Host.Outcome State Fault Refusal :=
  match d with
  | .error _ => .next (raise (.unknownOpcode op) s)
  | .ok (i, _) =>
    if i.operation ∈ Params.standard.handled then exec i s
    else .next (raise (.unhandledInstruction i.operation) s)

/-- One pass of the loop (40_engine.md R49; log 1). Idle, the engine stays as it is (60_exceptions.md R98).
Running, the loop tests `cyc > 0` and either fetches, decodes and dispatches one instruction, or returns `Ok`. -/
def loopPass (s : State) : Host.Outcome State Fault Refusal :=
  match s.mode with
  | .idle => .next s
  | .running c =>
    if 0 < c then dispatchDecoded (decode (fetchWindow s)) (fetchByte s).1 (fetchByte s).2
    else .next (endCall .ok s)

/-- Store bytes at rising addresses modulo 65536. -/
def placeBytes : Word → List Byte → State → State
  | _, [], s => s
  | a, b :: rest, s => placeBytes (a + 1) rest (memWrite a b s)

/-- A state whose next pass fetches: as it is where a call runs with `cyc > 0`, and inside `execute(1)` otherwise,
which "runs exactly one instruction" (60_exceptions.md R97; log 4). -/
def readyToFetch (s : State) : State :=
  match s.mode with
  | .idle => beginCall 1 s
  | .running c => if 0 < c then s else beginCall 1 s

end Sys2Proof.Machine
end

