-- ==== Sys2Proof/Machine/Step.lean ====
section
/-! DEFINITION. One step of the machine, and the state whose very next step runs a given instruction. -/

namespace Sys2Proof.Machine

/-- One step: one pass of the loop of `execute` (40_engine.md R49; log 1). -/
def step (s : State) : Host.Outcome State Fault Refusal := loopPass s

/-- `s` with an instruction's bytes at PC, and inside a call that fetches: this stands for the host's loading of a
program and its call of `execute` (70_reset_and_hazards.md R101; log 4). -/
def State.withFetchWord (s : State) (nbits w : Nat) : State :=
  readyToFetch (placeBytes s.PC (tableBytes nbits w) s)

end Sys2Proof.Machine
end

