-- ==== Sys2Proof/Machine/Access.lean ====
section
/-! DEFINITION. The host's access to the engine between calls (10_state.md R24, R25; 70_reset_and_hazards.md R100).
The host is outside the machine, so these are functions on State and no part of `step`. -/

namespace Sys2Proof.Machine

/-- A host address selects the byte at it modulo 65536 (20_memory.md R28, decision D14; log 18). -/
def hostAddr (n : Int) : Word := BitVec.ofInt 16 n

/-- What the host can do to an idle engine: any write of 10_state.md R24, `reset()` (R100) and `execute(budget)`. -/
inductive HostAction where
  /-- Write a memory byte. -/
  | writeMem (addr : Int) (v : Byte)
  /-- Write A. -/
  | setA (v : Byte)
  /-- Write X. -/
  | setX (v : Byte)
  /-- Write Y. -/
  | setY (v : Byte)
  /-- Write PC. -/
  | setPC (v : Word)
  /-- Write SP. -/
  | setSP (v : Word)
  /-- Write one flag, by its name only (10_state.md R20). -/
  | setFlag (f : FlagName) (b : Bool)
  /-- `reset()`. -/
  | reset
  /-- The start of `execute(budget)`. -/
  | execute (budget : BitVec 32)
  deriving DecidableEq, Repr

/-- What an action does to an idle engine. -/
def HostAction.apply (s : State) : HostAction → State
  | .writeMem addr v => memWrite (hostAddr addr) v s
  | .setA v => { s with A := v }
  | .setX v => { s with X := v }
  | .setY v => { s with Y := v }
  | .setPC v => { s with PC := v }
  | .setSP v => { s with SP := v }
  | .setFlag f b => { s with P := s.P.set f b }
  | .reset => State.reset
  | .execute budget => beginCall budget s

/-- A host action: refused while the engine runs (10_state.md R24; log 12). -/
def hostAct (a : HostAction) (s : State) : Host.Outcome State Fault Refusal :=
  match s.mode with
  | .idle => .next (a.apply s)
  | .running _ => .refused .hostActsOnlyWhileIdle

/-- What inspection shows: the registers, the flags and `Pbyte` (10_state.md R25). Its text is not modelled (log 20). -/
structure Inspection where
  /-- Program counter. -/
  PC : Word
  /-- Stack pointer. -/
  SP : Word
  /-- Accumulator. -/
  A : Byte
  /-- Index register X. -/
  X : Byte
  /-- Index register Y. -/
  Y : Byte
  /-- The named flags. -/
  P : Flags
  /-- The status byte. -/
  pbyte : Byte
  deriving DecidableEq, Repr

/-- Inspection, of an idle engine only; it has no effect on the state (10_state.md R24, R25). -/
def inspect (s : State) : Option Inspection :=
  match s.mode with
  | .idle =>
    some { PC := s.PC, SP := s.SP, A := s.A, X := s.X, Y := s.Y, P := s.P, pbyte := s.P.statusByte }
  | .running _ => none

/-- The host's read of a memory byte, of an idle engine only (10_state.md R24, 20_memory.md R28). -/
def hostReadMem (addr : Int) (s : State) : Option Byte :=
  match s.mode with
  | .idle => some (memRead (hostAddr addr) s)
  | .running _ => none

end Sys2Proof.Machine
end

