-- ==== Sys2Proof/Machine/Engine.lean ====
section
/-! DEFINITION. The engine of the spec read literally, with the parameters of 00_scope.md R6 as an argument: the
resolver that fetches its operand bytes one at a time (41_addressing_modes.md R59 to R67), the handlers
(42_load.md R70, 43_control.md R80), one iteration and the whole `execute` loop (40_engine.md R49). `step` is one
iteration of it under the default parameters; that they agree is an obligation, so nothing else rests on this file. -/

namespace Sys2Proof.Machine

/-- `ll <- FetchByte(); hh <- FetchByte(); return hh:ll`: ResolveAddr(abs) (41_addressing_modes.md R67), and the
start of every absolute mode. -/
def resolveAddr (s : State) : Word × State :=
  let (ll, s1) := fetchByte s
  let (hh, s2) := fetchByte s1
  (hiLo hh ll, s2)

/-- `ResolveValue(m)` (41_addressing_modes.md R59 to R66). -/
def resolveValue (p : Params) (m : AddrMode) (s : State) : Byte × State :=
  match m with
  | .imm => fetchByte s
  | .zp =>
    let (zz, s1) := fetchByte s
    operandZp zz s1
  | .zpX =>
    let (zz, s1) := fetchByte s
    operandZpX zz s1
  | .abs =>
    let (addr, s1) := resolveAddr s
    operandAbs addr s1
  | .absX =>
    let (base, s1) := resolveAddr s
    operandAbsX base s1
  | .absY =>
    let (base, s1) := resolveAddr s
    operandAbsY base s1
  | .indX =>
    let (zz, s1) := fetchByte s
    operandIndX p.zpPtrWrap zz s1
  | .indY =>
    let (zz, s1) := fetchByte s
    operandIndY p.zpPtrWrap zz s1

/-- `exec_LDA(m)` (42_load.md R70). -/
def execLDA (p : Params) (m : AddrMode) (s : State) : State := loadA (resolveValue p m s)

/-- `exec_JSR()` (43_control.md R80). -/
def execJSR (s : State) : State :=
  let (t, s1) := resolveAddr s
  jumpToSubroutine t s1

/-- `case i of …` (40_engine.md R49): LDA takes all eight wired modes, JSR takes abs only. -/
def dispatchHandler (p : Params) (i : Operation) (m : AddrMode) (s : State) : State :=
  match i with
  | .lda => execLDA p m s
  | .jsr => if m = .abs then execJSR s else raise (.unhandledAddressingMode m) s

/-- The checks after the opcode fetch, in the order of 40_engine.md R51. -/
def dispatchOpcode (p : Params) (op : Byte) (s : State) : State :=
  match decodeOp p op with
  | (some i, some m) =>
    if i ∈ p.handled then dispatchHandler p i m s else raise (.unhandledInstruction i) s
  | (some _, none) => raise (.unknownOpcode op) s
  | (none, some _) => raise (.unknownOpcode op) s
  | (none, none) => raise (.unknownOpcode op) s

/-- One iteration of the while loop, entered with `cyc > 0` (40_engine.md R49, R50). -/
def iterate (p : Params) (s : State) : State :=
  let (op, s1) := fetchByte s
  dispatchOpcode p op s1

/-- The while loop with fuel (40_engine.md R49, R53). -/
def executeLoop (p : Params) : Nat → State → State
  | 0, s => s
  | fuel + 1, s =>
    match s.mode with
    | .idle => s
    | .running c => if 0 < c then executeLoop p fuel (iterate p s) else endCall .ok s

/-- `execute(budget)` (40_engine.md R49, R55), from an idle engine to its return; the outcome and the final `cyc` are
in `returned`. The fuel is one test of the loop for each of at most `budget` iterations and one more (R53). -/
def execute (p : Params) (budget : BitVec 32) (s : State) : State :=
  executeLoop p (budget.toNat + 1) (beginCall budget s)

end Sys2Proof.Machine
end

