-- ==== Sys2Proof/Safety.lean ====
section
/-! DEFINITION. What claims call a good state, in the spec's own bounds, and the states the engine can reach. -/

namespace Sys2Proof.Machine

/-- What a returned report can hold: after `Ok`, `-5 <= cyc <= 0` (40_engine.md R52); after an error, a count that
was at least 1 when the opcode was fetched and less than 2^32, less 1 (60_exceptions.md R87). -/
def CallReturn.inRange (r : CallReturn) : Prop :=
  match r.result with
  | .ok => -5 ≤ r.cyc ∧ r.cyc ≤ 0
  | .err _ => 0 ≤ r.cyc ∧ r.cyc < 4294967295

/-- The invariant of the engine: memory in its canonical form; a running call's count between -5 and the largest
u32 (10_state.md R21) with no report yet; an idle engine's report in range. -/
structure State.Inv (s : State) : Prop where
  /-- The memory keeps its canonical form. -/
  mem_wf : s.mem.wf = true
  /-- The bounds of `cyc`. -/
  cyc_range : ∀ c, s.mode = .running c → -5 ≤ c ∧ c < 4294967296
  /-- While a call runs there is no report. -/
  no_report_in_call : ∀ c, s.mode = .running c → s.returned = none
  /-- A report holds what a call can return. -/
  report_range : ∀ r, s.returned = some r → r.inRange

/-- The states that construction, host actions on an idle engine and steps lead to. -/
inductive Reachable : State → Prop where
  /-- Construction (70_reset_and_hazards.md R99). -/
  | reset : Reachable State.reset
  /-- A host action (10_state.md R24). -/
  | host {s t : State} {a : HostAction} : Reachable s → hostAct a s = .next t → Reachable t
  /-- A step. -/
  | step {s t : State} : Reachable s → step s = .next t → Reachable t

/-- The bytes at the next fetch decode to this instruction. -/
def State.fetches (s : State) (i : Instr) : Prop := ∃ rest, decode (fetchWindow s) = .ok (i, rest)

/-- Adding Y to the pointer at `zz` crosses a page, under the default ZP_PTR_WRAP (41_addressing_modes.md R57, R58,
R66; the pointer's wrap is log 7, the sum's is log 14). -/
def State.crossesPage (s : State) (zz : Byte) : Bool :=
  let base := hiLo (memRead (zext16 (zz + 1)) s) (memRead (zext16 zz) s)
  hiByte (base + zext16 s.Y) != hiByte base

/-- The cycle table of 70_reset_and_hazards.md R103, the opcode fetch included, for an instruction fetched at `s`. -/
def State.cyclesOf (s : State) : Instr → Int
  | .ldaIndX _ => 6
  | .ldaZp _ => 3
  | .ldaImm _ => 2
  | .ldaAbs _ => 4
  | .ldaIndY zz => if s.crossesPage zz then 6 else 5
  | .ldaZpX _ => 4
  | .ldaAbsY _ => 4
  | .ldaAbsX _ => 4
  | .jsrAbs _ => 6
  | .jsrIndX => 1
  | .jsrZp => 1
  | .jsrImm => 1
  | .jsrIndY => 1
  | .jsrZpX => 1
  | .jsrAbsY => 1
  | .jsrAbsX => 1

end Sys2Proof.Machine
end

