-- ==== Sys2Proof/Certificates/Slice0/Obligations.lean ====
section
/-! DEFINITION. The statements for the provers. Each docstring names the rule of spec/ it formalises, or, where it rests
on a decision or an inference that the spec marks as its own or on a choice of the model, the section and the log
entry. They hold of every state, reachable or not, unless a premise says otherwise. -/

open Sys2Proof Sys2Proof.Machine

/-! ### Decoder, encoder and memory -/

/-- R41, R42: under any codes that meet R6's constraints, each half of `decode` is the variant whose code is the
byte's own field and `none` where there is none; a `none` in either half is the engine's UnknownOpcode; `encode` is
the OR of the two codes. -/
def Obligations.OpcodeDecodeLooksUpEachField : Prop :=
  ∀ p : Params, p.wellFormed = true → ∀ op : Byte,
    (∀ i, (decodeOp p op).1 = some i ↔ p.instrCode i = op &&& 0b11100000) ∧
    (∀ m, (decodeOp p op).2 = some m ↔ p.modeCode m = op &&& 0b00011111) ∧
    ((decodeOp p op).1 = none ↔ ∀ i, p.instrCode i ≠ op &&& 0b11100000) ∧
    ((decodeOp p op).2 = none ↔ ∀ m, p.modeCode m ≠ op &&& 0b00011111) ∧
    (∀ i m, encodeOp p i m = p.instrCode i ||| p.modeCode m) ∧
    (∀ s : State, memRead s.PC s = op → ((decodeOp p op).1 = none ∨ (decodeOp p op).2 = none) →
      iterate p s = raise (.unknownOpcode op) (advance s))

/-- R43, which the spec derives from R41 and R42: `decode` and `encode` of opcode bytes are inverse under any codes that
meet R6's constraints. -/
def Obligations.OpcodeCodecIsInverseBothWays : Prop :=
  ∀ p : Params, p.wellFormed = true →
    (∀ i m, decodeOp p (encodeOp p i m) = (some i, some m)) ∧
    (∀ op i m, decodeOp p op = (some i, some m) → encodeOp p i m = op)

/-- Decoding the bytes of any instruction, with any operand and any bytes after it, gives the instruction back and
leaves those bytes (R43, R45, R46; code values by decisions D1 and D2, logs 5 and 6; that the seven JSR rows that
raise take no operand byte is decision D12, log 17). -/
def Obligations.InstructionDecodesFromItsEncoding : Prop :=
  ∀ (i : Instr) (rest : List Byte), decode (encode i ++ rest) = .ok (i, rest)

/-- Whatever bytes decode to an instruction are its encoding and the bytes left over, so no instruction has two
encodings (R43, R45, R46; code values by decisions D1 and D2, logs 5 and 6; that the seven JSR rows that raise take no
operand byte is decision D12, log 17). -/
def Obligations.DecodedBytesAreTheEncoding : Prop :=
  ∀ (bs : List Byte) (i : Instr) (rest : List Byte), decode bs = .ok (i, rest) → bs = encode i ++ rest

/-- The opcode map (R44, derived by the spec; code values by decisions D1 and D2, logs 5 and 6): the nine executed
bytes, with their operands low byte first and the bytes left (R45, R46), the seven unhandled JSR bytes, which take no
operand byte (decision D12, log 17), and the other 240, each rejected as itself. -/
def Obligations.OpcodeMapHasThreeClasses : Prop :=
  ∀ op b1 b2 : Byte, decode [op, b1, b2] =
    if op = 0xA1 then .ok (.ldaIndX b1, [b2])
    else if op = 0xA5 then .ok (.ldaZp b1, [b2])
    else if op = 0xA9 then .ok (.ldaImm b1, [b2])
    else if op = 0xAD then .ok (.ldaAbs (hiLo b2 b1), [])
    else if op = 0xB1 then .ok (.ldaIndY b1, [b2])
    else if op = 0xB5 then .ok (.ldaZpX b1, [b2])
    else if op = 0xB9 then .ok (.ldaAbsY (hiLo b2 b1), [])
    else if op = 0xBD then .ok (.ldaAbsX (hiLo b2 b1), [])
    else if op = 0x2D then .ok (.jsrAbs (hiLo b2 b1), [])
    else if op = 0x21 then .ok (.jsrIndX, [b1, b2])
    else if op = 0x25 then .ok (.jsrZp, [b1, b2])
    else if op = 0x29 then .ok (.jsrImm, [b1, b2])
    else if op = 0x31 then .ok (.jsrIndY, [b1, b2])
    else if op = 0x35 then .ok (.jsrZpX, [b1, b2])
    else if op = 0x39 then .ok (.jsrAbsY, [b1, b2])
    else if op = 0x3D then .ok (.jsrAbsX, [b1, b2])
    else .error (.unknownOpcode op)

/-- Bytes written out from the encoding tables of R38 to R46: iii, mmmmm, then the operand low byte first (code values
by decisions D1 and D2, logs 5 and 6; that JSR in the immediate mode takes no operand byte is decision D12, log 17). -/
def Obligations.WrittenOutWordsDecode : Prop :=
  decode [0b101_01001, 0x42] = .ok (.ldaImm 0x42, []) ∧
  decode [0b101_11101, 0xF0, 0x12] = .ok (.ldaAbsX 0x12F0, []) ∧
  decode [0b101_10001, 0x40] = .ok (.ldaIndY 0x40, []) ∧
  decode [0b001_01101, 0x00, 0x90] = .ok (.jsrAbs 0x9000, []) ∧
  decode [0b001_01001, 0x00] = .ok (.jsrImm, [0x00]) ∧
  decode [0b000_00000] = .error (.unknownOpcode 0x00) ∧
  decode [0b001_00000] = .error (.unknownOpcode 0x20)

/-- R27: a read gives the byte most recently written at the address, or 0x00 where no write has reached it since
construction or reset; a write changes that one byte and nothing else. -/
def Obligations.BusReadsTheLastByteWritten : Prop :=
  (∀ a : Word, memRead a State.reset = 0x00) ∧
  (∀ (a b : Word) (v : Byte) (s : State), memRead b (memWrite a v s) = if b = a then v else memRead b s) ∧
  (∀ (a : Word) (v : Byte) (s : State), memWrite a v s = { s with mem := (memWrite a v s).mem })

/-- Two memories in the model's canonical form that read alike everywhere are the same data (the model's
representation of R26's array, log 11). -/
def Obligations.CanonicalMemoriesThatReadAlikeAreEqual : Prop :=
  ∀ m n : Memory, m.wf = true → n.wf = true →
    (∀ a : Nat, a < 65536 → m.read a = n.read a) → m = n

/-- The two-byte push of R33: low byte at SP-2, high byte at SP-1, both modulo 65536, SP less 2, every other byte and
every other field as before (literal addresses and wrap by decision D10, log 15). -/
def Obligations.PushStoresLowByteBelowHighByte : Prop :=
  ∀ (v : Word) (s : State),
    memRead (s.SP - 2) (push16 v s) = loByte v ∧
    memRead (s.SP - 1) (push16 v s) = hiByte v ∧
    (∀ a, a ≠ s.SP - 2 → a ≠ s.SP - 1 → memRead a (push16 v s) = memRead a s) ∧
    push16 v s = { s with mem := (push16 v s).mem, SP := s.SP - 2 }

/-! ### Reset and the host -/

/-- R99: the state after construction and reset. That `returned` holds nothing then is the model's own field's
choice (log 2) and is not part of the statement. -/
def Obligations.ResetStateIsAsSpecified : Prop :=
  State.reset.A = 0x00 ∧ State.reset.X = 0x00 ∧ State.reset.Y = 0x00 ∧
  State.reset.PC = 0xFFFC ∧ State.reset.SP = 0x0100 ∧
  (∀ f : FlagName, State.reset.P.get f = false) ∧ State.reset.P.statusByte = 0x00 ∧
  (∀ a : Word, memRead a State.reset = 0x00) ∧
  State.reset.mode = .idle ∧ State.reset.cyc = none

/-- `reset()` of an idle engine gives the state of construction, whatever was written before (R100), and an engine that
runs cannot be reset. The model's own choices in it: the refusal of an action in a running engine (log 12) and the
cleared report in `State.reset` (log 2). -/
def Obligations.ResetActionRestoresConstructionState : Prop :=
  ∀ s : State,
    (s.mode = .idle → hostAct .reset s = .next State.reset) ∧
    (∀ c, s.mode = .running c → hostAct .reset s = .refused .hostActsOnlyWhileIdle)

/-- The host's writes to an idle engine (R24, by decision D13, log 12): each changes the one item it names, a flag
without the other flags; no action is possible in a running engine. `execute` starts a call with an int count
(decision D6, log 13) and clears the report (log 2). -/
def Obligations.HostWritesChangeOnlyWhatTheyName : Prop :=
  ∀ s : State,
    (∀ c, s.mode = .running c → ∀ a, hostAct a s = .refused .hostActsOnlyWhileIdle) ∧
    (s.mode = .idle →
      (∀ v, hostAct (.setA v) s = .next { s with A := v }) ∧
      (∀ v, hostAct (.setX v) s = .next { s with X := v }) ∧
      (∀ v, hostAct (.setY v) s = .next { s with Y := v }) ∧
      (∀ v, hostAct (.setPC v) s = .next { s with PC := v }) ∧
      (∀ v, hostAct (.setSP v) s = .next { s with SP := v }) ∧
      (∀ f b, ∃ P, hostAct (.setFlag f b) s = .next { s with P := P } ∧ P.get f = b ∧
        ∀ g, g ≠ f → P.get g = s.P.get g) ∧
      (∀ n v, ∃ M, hostAct (.writeMem n v) s = .next { s with mem := M } ∧
        ∀ a : Word, memRead a { s with mem := M } = if a = hostAddr n then v else memRead a s) ∧
      (∀ b : BitVec 32, hostAct (.execute b) s =
        .next { s with mode := .running b.toNat, returned := none }))

/-- Host addresses are taken modulo 65536 (R28, by decision D14, log 18), negative integers too. -/
def Obligations.HostAddressesTruncate : Prop :=
  ∀ n : Int, ((hostAddr n).toNat : Int) = n % 65536 ∧
    ∀ (s : State) (v : Byte), s.mode = .idle →
      hostReadMem n s = hostReadMem (n % 65536) s ∧
      hostAct (.writeMem n v) s = hostAct (.writeMem (n % 65536) v) s

/-- The status byte's layout N V 5 B D I Z C with bit 5 always 0 (R18 and R20, by decisions D5 and D19, log 9). -/
def Obligations.StatusByteLayout : Prop :=
  ∀ p : Flags,
    p.statusByte.getLsbD 7 = p.N ∧ p.statusByte.getLsbD 6 = p.V ∧ p.statusByte.getLsbD 5 = false ∧
    p.statusByte.getLsbD 4 = p.B ∧ p.statusByte.getLsbD 3 = p.D ∧ p.statusByte.getLsbD 2 = p.I ∧
    p.statusByte.getLsbD 1 = p.Z ∧ p.statusByte.getLsbD 0 = p.C

/-- Inspection of an idle engine shows its registers, flags and status byte; no other agent sees a running engine
(R24, R25, by decision D16, log 20). -/
def Obligations.InspectionShowsTheRegisters : Prop :=
  ∀ s : State,
    (s.mode = .idle → ∃ r, inspect s = some r ∧ r.PC = s.PC ∧ r.SP = s.SP ∧ r.A = s.A ∧ r.X = s.X ∧ r.Y = s.Y ∧
      r.P = s.P ∧ r.pbyte = s.P.statusByte ∧ ∀ n, hostReadMem n s = some (memRead (hostAddr n) s)) ∧
    (∀ c, s.mode = .running c → inspect s = none ∧ ∀ n, hostReadMem n s = none)

/-! ### The resolver of the literal engine -/

/-- R59, R60, R61, R62: the value, the operand bytes consumed and the cycles charged of the immediate, zero-page,
zero-page-X and absolute modes; nothing else changes. -/
def Obligations.DirectModesResolve : Prop :=
  ∀ (p : Params) (s : State) (c : Int), s.mode = .running c →
    resolveValue p .imm s = (memRead s.PC s, { s with PC := s.PC + 1, mode := .running (c - 1) }) ∧
    resolveValue p .zp s =
      (memRead (zext16 (memRead s.PC s)) s, { s with PC := s.PC + 1, mode := .running (c - 2) }) ∧
    resolveValue p .zpX s =
      (memRead (zext16 (memRead s.PC s + s.X)) s, { s with PC := s.PC + 1, mode := .running (c - 3) }) ∧
    resolveValue p .abs s =
      (memRead (hiLo (memRead (s.PC + 1) s) (memRead s.PC s)) s,
        { s with PC := s.PC + 2, mode := .running (c - 3) })

/-- R63 to R66: abs,X, abs,Y, (ind,X) and (ind),Y under either ZP_PTR_WRAP (16-bit wrap by decision D9, log 14; zero-page
wrap by decision D8, log 7). -/
def Obligations.IndexedAndIndirectModesResolve : Prop :=
  ∀ (p : Params) (s : State) (c : Int), s.mode = .running c →
    let operand := memRead s.PC s
    let base := hiLo (memRead (s.PC + 1) s) (memRead s.PC s)
    let next := fun z : Byte =>
      if p.zpPtrWrap = .page then zext16 (z + 1) else zext16 z + 1
    let pointer := fun z : Byte => hiLo (memRead (next z) s) (memRead (zext16 z) s)
    let z := operand + s.X
    let ea := pointer operand + zext16 s.Y
    resolveValue p .absX s =
      (memRead (base + zext16 s.X) s, { s with PC := s.PC + 2, mode := .running (c - 3) }) ∧
    resolveValue p .absY s =
      (memRead (base + zext16 s.Y) s, { s with PC := s.PC + 2, mode := .running (c - 3) }) ∧
    resolveValue p .indX s =
      (memRead (pointer z) s, { s with PC := s.PC + 1, mode := .running (c - 5) }) ∧
    resolveValue p .indY s =
      (memRead ea s,
        { s with
          PC := s.PC + 1
          mode := .running
            (c - if hiByte ea = hiByte (pointer operand) then 4 else 5) })

/-! ### The loop -/

/-- The step itself: with cycles left, the opcode byte at PC is fetched (PC advances by 1 modulo 65536, one cycle is
charged) before decode (R50); then the decoded instruction is executed (decoded ahead of its operand fetches, log 21),
or the call ends with UnknownOpcode (R84), in both cases with PC past the opcode. The reported count is decision D7
(log 13). -/
def Obligations.StepFetchesThenRunsTheDecodedInstruction : Prop :=
  ∀ (s : State) (c : Int), s.mode = .running c → 0 < c →
    (∀ i, s.fetches i → step s = exec i { s with PC := s.PC + 1, mode := .running (c - 1) }) ∧
    ((∀ i, ¬ s.fetches i) → step s = .next
      { s with
        PC := s.PC + 1
        mode := .idle
        returned := some { result := .err (.unknownOpcode (memRead s.PC s)), cyc := c - 1 } })

/-- R84: an opcode byte with `none` in either half ends the call with UnknownOpcode of that byte: PC is one past the
byte, the count is charged 1, nothing else changes. -/
def Obligations.UnknownOpcodeEndsTheCall : Prop :=
  ∀ (s : State) (c : Int), s.mode = .running c → 0 < c →
    let op := memRead s.PC s
    ((decodeOp Params.standard op).1 = none ∨ (decodeOp Params.standard op).2 = none) →
    step s = .next
      { s with
        PC := s.PC + 1
        mode := .idle
        returned := some { result := .err (.unknownOpcode op), cyc := c - 1 } }

/-- The seven JSR bytes whose mode is not absolute complete by raising their error (R86): the call ends, no operand byte
is consumed, nothing else changes (raised at dispatch by decision D12, log 17; the reported count is decision D7,
log 13). -/
def Obligations.JsrInOtherModesRaisesAtDispatch : Prop :=
  ∀ (s : State) (c : Int), s.mode = .running c →
    let ended := fun m : AddrMode =>
      { s with
        mode := .idle
        returned := some { result := .err (.unhandledAddressingMode m), cyc := c } }
    exec .jsrIndX s = .next (ended .indX) ∧
    exec .jsrZp s = .next (ended .zp) ∧
    exec .jsrImm s = .next (ended .imm) ∧
    exec .jsrIndY s = .next (ended .indY) ∧
    exec .jsrZpX s = .next (ended .zpX) ∧
    exec .jsrAbsY s = .next (ended .absY) ∧
    exec .jsrAbsX s = .next (ended .absX)

/-- Under the default configuration a step raises UnhandledAddressingMode(m) exactly where the opcode byte is the
encoding of JSR with a mode m other than absolute (R86), and the call then ends with PC past the opcode byte, the
count charged 1 and nothing else changed (R87: raised at dispatch by decision D12, log 17; the reported count is
decision D7, log 13). -/
def Obligations.UnhandledModeIsRaisedExactlyByJsr : Prop :=
  ∀ (s : State) (c : Int), s.mode = .running c → 0 < c → ∀ m : AddrMode,
    ((∃ t c', step s = .next t ∧ t.mode = .idle ∧
      t.returned = some { result := .err (.unhandledAddressingMode m), cyc := c' }) ↔
    (m ≠ .abs ∧ memRead s.PC s = encodeOp Params.standard .jsr m)) ∧
    (m ≠ .abs → memRead s.PC s = encodeOp Params.standard .jsr m → step s = .next
      { s with
        PC := s.PC + 1
        mode := .idle
        returned := some { result := .err (.unhandledAddressingMode m), cyc := c - 1 } })

/-- R89: a step that ends the call with cycles left has raised an error, and the state is the one before it plus the
erroring opcode's fetch: no register, flag, SP or memory byte has changed, and nothing is rolled back. -/
def Obligations.ErrorChangesOnlyPcAndCount : Prop :=
  ∀ (s t : State) (c : Int), s.mode = .running c → 0 < c → step s = .next t → t.mode = .idle →
    ∃ e : EngineError,
      t = { s with PC := s.PC + 1, mode := .idle, returned := some { result := .err e, cyc := c - 1 } }

/-- After any error the host may call `execute` again, and the run resumes one past the erroring opcode with a fresh
count: so for every step that ends the call with cycles left (R90, derived by the spec; that an error consumes no
operand byte is decision D12, log 17; the count is an int by decision D6, log 13; that the new call clears the report
is log 2). -/
def Obligations.NewCallResumesPastTheErroringOpcode : Prop :=
  ∀ (s t : State) (c : Int) (budget : BitVec 32),
    s.mode = .running c → 0 < c → step s = .next t → t.mode = .idle →
    hostAct (.execute budget) t =
      .next { s with PC := s.PC + 1, mode := .running budget.toNat, returned := none }

/-- The loop's return (R49, R52; that cyc is an int and is reported is decisions D6 and D7, log 13): with no cycle left
the engine turns idle, reports Ok with the count as it is, and changes nothing else. -/
def Obligations.SpentBudgetReturnsOk : Prop :=
  ∀ (s : State) (c : Int), s.mode = .running c → c ≤ 0 →
    step s = .next { s with mode := .idle, returned := some { result := .ok, cyc := c } }

/-- R98: between calls all state persists unchanged; only the host's next call wakes the engine. -/
def Obligations.IdleEngineKeepsItsState : Prop :=
  ∀ s : State, s.mode = .idle →
    step s = .next s ∧
    ∀ (a : HostAction) (t : State), hostAct a s = .next t → t.mode ≠ .idle → ∃ budget, a = .execute budget

/-- No instruction halts the engine, waits, or stops the loop early (R54). A step always answers a next state, it ends a
call only where no cycle is left or an error is raised, and a running engine always comes back to idle. That a call
reports its count is decision D7 and that the count does not wrap is D6 (log 13); that an error has charged exactly
the opcode fetch is D12 (log 17); one step is one pass of the loop (log 1). -/
def Obligations.StepAlwaysAnswersNext : Prop :=
  ∀ s : State,
    (∃ t, step s = .next t ∧
      ∀ c, s.mode = .running c → t.mode = .idle →
        (c ≤ 0 ∧ t.returned = some { result := .ok, cyc := c }) ∨
        (0 < c ∧ ∃ e, t.returned = some { result := .err e, cyc := c - 1 })) ∧
    (∀ c, s.mode = .running c → ∃ k t, Sys2Proof.core.run k s = .next t ∧ t.mode = .idle)

/-- A call of `execute(budget)` has returned after at most `budget` iterations and one last test of the loop (R53, derived
by the spec; one step is one pass of the loop, log 1; the bound needs a count that does not wrap, decision D6,
log 13). -/
def Obligations.ExecuteReturnsWithinBudget : Prop :=
  ∀ (s : State) (budget : BitVec 32), s.mode = .idle →
    ∃ t r, Sys2Proof.core.run (budget.toNat + 1) (beginCall budget s) = .next t ∧
      t.mode = .idle ∧ t.returned = some r

/-- `execute(0)` fetches nothing and returns (Ok, 0) with the engine's state unchanged (R53, derived by the spec; the
reported count is decision D7, log 13; the report is log 2; one step is one pass of the loop, log 1). -/
def Obligations.ExecuteZeroFetchesNothing : Prop :=
  ∀ s : State, s.mode = .idle →
    Sys2Proof.core.run 1 (beginCall 0 s) = .next { s with returned := some { result := .ok, cyc := 0 } }

/-- `execute(1)` runs exactly one instruction, unless its fetch raises, and returns Ok (R97, derived by the spec; one
step is one pass of the loop, log 1). The count left is 1 less the instruction's 2 to 6 cycles (R52 with R103, derived
by the spec), an int below zero that is reported by decisions D6 and D7 (log 13). -/
def Obligations.ExecuteOneRunsOneInstruction : Prop :=
  ∀ (s t : State) (i : Instr) (n : Int), s.mode = .idle → s.fetches i →
    exec i (advance (beginCall 1 s)) = .next t → t.mode = .running n →
    Sys2Proof.core.run 2 (beginCall 1 s) =
      .next { t with mode := .idle, returned := some { result := .ok, cyc := n } } ∧ -5 ≤ n ∧ n ≤ -1

/-- A step with cycles left is one iteration of the spec's loop read literally, each operand byte fetched by its own
FetchByte (R49, R56; the model decodes ahead of those fetches, log 21). -/
def Obligations.StepIsOneIterationOfTheLiteralLoop : Prop :=
  ∀ (s : State) (c : Int), s.mode = .running c → 0 < c → step s = .next (iterate Params.standard s)

/-- Running the machine's steps from the start of a call gives the state and the report of the literal
`execute(budget)` (R49, R55; one step is one pass of the loop, log 1; the report is log 2 and log 13). -/
def Obligations.RunOfStepsIsTheLiteralExecute : Prop :=
  ∀ (s : State) (budget : BitVec 32),
    Sys2Proof.core.run (budget.toNat + 1) (beginCall budget s) = .next (execute Params.standard budget s)

/-- Under every value of the parameters of R6, the literal `execute` returns within its budget (R53, derived by the
spec), with a count between -5 and 0 after Ok (R52); both need a count that does not wrap (decision D6, log 13), and
that it is reported is decision D7 (log 13). -/
def Obligations.ExecuteReturnsUnderEveryParameter : Prop :=
  ∀ (p : Params) (s : State) (budget : BitVec 32), s.mode = .idle →
    (execute p budget s).mode = .idle ∧
    ∃ r, (execute p budget s).returned = some r ∧ (r.result = .ok → -5 ≤ r.cyc ∧ r.cyc ≤ 0)

/-- The order of the checks of one iteration, for any parameters (R51, R85, by decisions D4, D12 and D15, logs 8 and 17):
decode, then the existence of a handler, then the mode, then the handler. -/
def Obligations.DispatchChecksInOrder : Prop :=
  ∀ (p : Params) (s : State),
    let d := decodeOp p (memRead s.PC s)
    ((d.1 = none ∨ d.2 = none) → iterate p s = raise (.unknownOpcode (memRead s.PC s)) (advance s)) ∧
    (∀ i m, d = (some i, some m) → i ∉ p.handled → iterate p s = raise (.unhandledInstruction i) (advance s)) ∧
    (∀ m, d = (some .jsr, some m) → .jsr ∈ p.handled → m ≠ .abs →
      iterate p s = raise (.unhandledAddressingMode m) (advance s)) ∧
    (d = (some .jsr, some .abs) → .jsr ∈ p.handled → iterate p s = execJSR (advance s)) ∧
    (∀ m, d = (some .lda, some m) → .lda ∈ p.handled → iterate p s = execLDA p m (advance s))

/-- Under the default HANDLED no step raises UnhandledInstruction (R85, by decision D4, log 8). -/
def Obligations.UnhandledInstructionIsUnreachable : Prop :=
  ∀ (s t : State) (c c' : Int) (i : Operation), s.mode = .running c → step s = .next t → t.mode = .idle →
    t.returned ≠ some { result := .err (.unhandledInstruction i), cyc := c' }

/-! ### LDA -/

/-- R70: every LDA form runs exec_LDA of its mode and completes; it sets A, P.Z and P.N by the loaded byte, moves PC and
the count, leaves X, Y, SP, the other flags and every byte of memory unchanged, and does not depend on the D flag. -/
def Obligations.LdaWritesOnlyAccumulatorZeroNegative : Prop :=
  (∀ (p : Params) (m : AddrMode) (s : State),
    let r := resolveValue p m s
    execLDA p m s =
      { r.2 with A := r.1, P := { r.2.P with Z := decide (r.1 = 0x00), N := r.1.getLsbD 7 } }) ∧
  (∀ (i : Instr) (s : State) (c : Int), i.operation = .lda → s.mode = .running c → 0 < c → s.fetches i →
    step s = .next (execLDA Params.standard i.mode (advance s))) ∧
  (∀ (i : Instr) (s : State) (c : Int), i.operation = .lda → s.mode = .running c →
    ∃ t n, exec i s = .next t ∧ t.mode = .running n ∧
      t.P.Z = decide (t.A = 0x00) ∧ t.P.N = t.A.getLsbD 7 ∧
      t.P.C = s.P.C ∧ t.P.I = s.P.I ∧ t.P.D = s.P.D ∧ t.P.B = s.P.B ∧ t.P.V = s.P.V ∧
      t.X = s.X ∧ t.Y = s.Y ∧ t.SP = s.SP ∧ t.returned = s.returned ∧
      (∀ a, memRead a t = memRead a s) ∧
      ∀ d, exec i { s with P := { s.P with D := d } } = .next { t with P := { t.P with D := d } })

/-- LDA #nn (42_load.md R72; opcode value by decisions D1 and D2, logs 5 and 6): its effect, and its two cycles as a step. -/
def Obligations.LdaImmediateLoadsItsOperand : Prop :=
  ∀ (s : State) (c : Int) (nn : Byte), s.mode = .running c →
    let loaded := { s with A := nn, P := { s.P with Z := decide (nn = 0x00), N := nn.getLsbD 7 } }
    exec (.ldaImm nn) s = .next { loaded with PC := s.PC + 1, mode := .running (c - 1) } ∧
    (0 < c → memRead s.PC s = 0xA9 → memRead (s.PC + 1) s = nn →
      step s = .next { loaded with PC := s.PC + 2, mode := .running (c - 2) })

/-- LDA zz (42_load.md R73; opcode value by decisions D1 and D2, logs 5 and 6): three cycles. -/
def Obligations.LdaZeroPageLoads : Prop :=
  ∀ (s : State) (c : Int) (zz : Byte), s.mode = .running c →
    let v := memRead (zext16 zz) s
    let loaded := { s with A := v, P := { s.P with Z := decide (v = 0x00), N := v.getLsbD 7 } }
    exec (.ldaZp zz) s = .next { loaded with PC := s.PC + 1, mode := .running (c - 2) } ∧
    (0 < c → memRead s.PC s = 0xA5 → memRead (s.PC + 1) s = zz →
      step s = .next { loaded with PC := s.PC + 2, mode := .running (c - 3) })

/-- LDA zz,X (42_load.md R74; opcode value by decisions D1 and D2, logs 5 and 6): the sum wraps in the page; four
cycles. -/
def Obligations.LdaZeroPageXWrapsInThePage : Prop :=
  ∀ (s : State) (c : Int) (zz : Byte), s.mode = .running c →
    let v := memRead (zext16 (zz + s.X)) s
    let loaded := { s with A := v, P := { s.P with Z := decide (v = 0x00), N := v.getLsbD 7 } }
    exec (.ldaZpX zz) s = .next { loaded with PC := s.PC + 1, mode := .running (c - 3) } ∧
    (0 < c → memRead s.PC s = 0xB5 → memRead (s.PC + 1) s = zz →
      step s = .next { loaded with PC := s.PC + 2, mode := .running (c - 4) })

/-- LDA hhll (42_load.md R75; opcode value by decisions D1 and D2, logs 5 and 6): four cycles. -/
def Obligations.LdaAbsoluteLoads : Prop :=
  ∀ (s : State) (c : Int) (hh ll : Byte), s.mode = .running c →
    let v := memRead (hiLo hh ll) s
    let loaded := { s with A := v, P := { s.P with Z := decide (v = 0x00), N := v.getLsbD 7 } }
    exec (.ldaAbs (hiLo hh ll)) s = .next { loaded with PC := s.PC + 2, mode := .running (c - 3) } ∧
    (0 < c → memRead s.PC s = 0xAD → memRead (s.PC + 1) s = ll → memRead (s.PC + 2) s = hh →
      step s = .next { loaded with PC := s.PC + 3, mode := .running (c - 4) })

/-- LDA hhll,X (42_load.md R76; wrap by decision D9, log 14; opcode value by decisions D1 and D2, logs 5 and 6): four
cycles, with or without a page crossing. -/
def Obligations.LdaAbsoluteXWrapsWithoutPenalty : Prop :=
  ∀ (s : State) (c : Int) (hh ll : Byte), s.mode = .running c →
    let v := memRead (hiLo hh ll + zext16 s.X) s
    let loaded := { s with A := v, P := { s.P with Z := decide (v = 0x00), N := v.getLsbD 7 } }
    exec (.ldaAbsX (hiLo hh ll)) s = .next { loaded with PC := s.PC + 2, mode := .running (c - 3) } ∧
    (0 < c → memRead s.PC s = 0xBD → memRead (s.PC + 1) s = ll → memRead (s.PC + 2) s = hh →
      step s = .next { loaded with PC := s.PC + 3, mode := .running (c - 4) })

/-- LDA hhll,Y (42_load.md R77; wrap by decision D9, log 14; opcode value by decisions D1 and D2, logs 5 and 6): four
cycles, with or without a page crossing. -/
def Obligations.LdaAbsoluteYWrapsWithoutPenalty : Prop :=
  ∀ (s : State) (c : Int) (hh ll : Byte), s.mode = .running c →
    let v := memRead (hiLo hh ll + zext16 s.Y) s
    let loaded := { s with A := v, P := { s.P with Z := decide (v = 0x00), N := v.getLsbD 7 } }
    exec (.ldaAbsY (hiLo hh ll)) s = .next { loaded with PC := s.PC + 2, mode := .running (c - 3) } ∧
    (0 < c → memRead s.PC s = 0xB9 → memRead (s.PC + 1) s = ll → memRead (s.PC + 2) s = hh →
      step s = .next { loaded with PC := s.PC + 3, mode := .running (c - 4) })

/-- LDA (zz,X) (42_load.md R78; zero-page wrap by decision D8, log 7; opcode value by decisions D1 and D2, logs 5
and 6): the pointer and its high byte's address wrap in the page; six cycles. -/
def Obligations.LdaIndexedIndirectLoadsThroughPointer : Prop :=
  ∀ (s : State) (c : Int) (zz : Byte), s.mode = .running c →
    let z := zz + s.X
    let v := memRead (hiLo (memRead (zext16 (z + 1)) s) (memRead (zext16 z) s)) s
    let loaded := { s with A := v, P := { s.P with Z := decide (v = 0x00), N := v.getLsbD 7 } }
    exec (.ldaIndX zz) s = .next { loaded with PC := s.PC + 1, mode := .running (c - 5) } ∧
    (0 < c → memRead s.PC s = 0xA1 → memRead (s.PC + 1) s = zz →
      step s = .next { loaded with PC := s.PC + 2, mode := .running (c - 6) })

/-- LDA (zz),Y (42_load.md R79; wraps by decisions D8 and D9, logs 7 and 14; opcode value by decisions D1 and D2, logs 5
and 6): five cycles, and exactly one more where adding Y changes the pointer's high byte. -/
def Obligations.LdaIndirectIndexedChargesPageCrossing : Prop :=
  ∀ (s : State) (c : Int) (zz : Byte), s.mode = .running c →
    let base := hiLo (memRead (zext16 (zz + 1)) s) (memRead (zext16 zz) s)
    let ea := base + zext16 s.Y
    let v := memRead ea s
    let extra : Int := if hiByte ea = hiByte base then 0 else 1
    let loaded := { s with A := v, P := { s.P with Z := decide (v = 0x00), N := v.getLsbD 7 } }
    exec (.ldaIndY zz) s = .next { loaded with PC := s.PC + 1, mode := .running (c - 4 - extra) } ∧
    (0 < c → memRead s.PC s = 0xB1 → memRead (s.PC + 1) s = zz →
      step s = .next { loaded with PC := s.PC + 2, mode := .running (c - 5 - extra) })

/-! ### JSR -/

/-- JSR hhll (43_control.md R80; literal stack addresses by decision D10, log 15; cycle split by decision D11, log 16;
opcode value by decisions D1 and D2, logs 5 and 6): it completes, pushes the address past its third byte, takes 2
from SP, goes to the target, six cycles in all. -/
def Obligations.JsrPushesReturnAddressAndJumps : Prop :=
  ∀ (s : State) (c : Int) (hh ll : Byte), s.mode = .running c →
    (∃ M, exec (.jsrAbs (hiLo hh ll)) s =
        .next { s with mem := M, SP := s.SP - 2, PC := hiLo hh ll, mode := .running (c - 5) } ∧
      memRead (s.SP - 2) { s with mem := M } = loByte (s.PC + 2) ∧
      memRead (s.SP - 1) { s with mem := M } = hiByte (s.PC + 2)) ∧
    (0 < c → memRead s.PC s = 0x2D → memRead (s.PC + 1) s = ll → memRead (s.PC + 2) s = hh →
      ∃ M, step s = .next { s with mem := M, SP := s.SP - 2, PC := hiLo hh ll, mode := .running (c - 6) } ∧
        memRead (s.SP - 2) { s with mem := M } = loByte (s.PC + 3) ∧
        memRead (s.SP - 1) { s with mem := M } = hiByte (s.PC + 3))

/-- The frame of JSR hhll (R80; stack addresses by decision D10, log 15): the two stored bytes are at the addresses its
push computes from SP; every other byte of memory, every other register and every flag is unchanged. -/
def Obligations.JsrFrame : Prop :=
  ∀ (s t : State) (target : Word), exec (.jsrAbs target) s = .next t →
    t.A = s.A ∧ t.X = s.X ∧ t.Y = s.Y ∧ t.P = s.P ∧ t.returned = s.returned ∧
    ∀ lo hi, pushLoAddr s.SP = lo → pushHiAddr s.SP = hi →
      ∀ a, a ≠ lo → a ≠ hi → memRead a t = memRead a s

/-- R81: the return address JSR pushes is PC when the target has been resolved, the address just past the instruction's
third byte: its high byte at old SP-1, its low byte at old SP-2. -/
def Obligations.JsrReturnAddressIsPastTheThirdByte : Prop :=
  ∀ (s : State) (c : Int), s.mode = .running c → 0 < c →
    memRead s.PC s = encodeOp Params.standard .jsr .abs →
    ∃ t, step s = .next t ∧
      hiLo (memRead (s.SP - 1) t) (memRead (s.SP - 2) t) = (resolveAddr (advance s)).2.PC ∧
      (resolveAddr (advance s)).2.PC = s.PC + 3

/-- The fetch sees a push (R37, derived by the spec), for the one target SP-2, a JSR's own stack slot: the next opcode
and operand are then the two bytes of the return address it pushed, low byte first (where they lie, and in which
order, by R33 and decision D10, log 15). -/
def Obligations.FetchSeesPushedBytes : Prop :=
  ∀ (s t : State), exec (.jsrAbs (s.SP - 2)) s = .next t →
    (fetchWindow t).take 2 = [loByte (s.PC + 2), hiByte (s.PC + 2)]

/-! ### Rules of the whole machine -/

/-- The readers and writers of the data registers (10_state.md, section 2): no step writes X or Y; every LDA writes A with
its resolved value and no other step writes A; no instruction reads A; X is read by zp,X, abs,X and (ind,X) only and Y by
abs,Y and (ind),Y only; the host writes all three (decision D13, log 12). -/
def Obligations.DataRegistersHaveTheStatedWritersAndReaders : Prop :=
  (∀ s t : State, step s = .next t → t.X = s.X ∧ t.Y = s.Y ∧
    ((∀ i, s.fetches i → i.operation ≠ .lda) → t.A = s.A)) ∧
  (∀ (s : State) (c : Int) (i : Instr), s.mode = .running c → 0 < c → s.fetches i → i.operation = .lda →
    ∃ t, step s = .next t ∧ t.A = (resolveValue Params.standard i.mode (advance s)).1) ∧
  (∀ (s t : State) (a : Byte), step s = .next t →
    ∃ t', step { s with A := a } = .next t' ∧ { t' with A := t.A } = t) ∧
  (∀ (i : Instr) (s t : State) (x : Byte), exec i s = .next t →
    ¬ (i.operation = .lda ∧ (i.mode = .zpX ∨ i.mode = .absX ∨ i.mode = .indX)) →
    exec i { s with X := x } = .next { t with X := x }) ∧
  (∀ (i : Instr) (s t : State) (y : Byte), exec i s = .next t →
    ¬ (i.operation = .lda ∧ (i.mode = .absY ∨ i.mode = .indY)) →
    exec i { s with Y := y } = .next { t with Y := y }) ∧
  (∀ (s : State) (v : Byte), s.mode = .idle →
    hostAct (.setA v) s = .next { s with A := v } ∧ hostAct (.setX v) s = .next { s with X := v } ∧
    hostAct (.setY v) s = .next { s with Y := v })

/-- PC changes only by the bytes fetched, modulo 65536, and by JSR's target; the host may set it (R14). A step that
fetches nothing leaves it; an unknown opcode moves it by 1; an instruction moves it by its length (R45), but an absolute
JSR, which sets it. That the seven JSR rows that raise have length 1, their opcode byte, is R87 by decision D12
(log 17); the host's write of PC is decision D13 (log 12). -/
def Obligations.ProgramCounterAdvancesOrIsSetByJsr : Prop :=
  (∀ s : State, s.mode = .idle → ∃ t, step s = .next t ∧ t.PC = s.PC) ∧
  (∀ (s : State) (c : Int), s.mode = .running c → c ≤ 0 → ∃ t, step s = .next t ∧ t.PC = s.PC) ∧
  (∀ (s : State) (c : Int), s.mode = .running c → 0 < c →
    ((∀ i, ¬ s.fetches i) → ∃ t, step s = .next t ∧ t.PC = s.PC + 1) ∧
    (∀ i, s.fetches i → (∀ target, i ≠ .jsrAbs target) →
      ∃ t, step s = .next t ∧ t.PC = s.PC + BitVec.ofNat 16 i.length) ∧
    (∀ target, s.fetches (.jsrAbs target) → ∃ t, step s = .next t ∧ t.PC = target)) ∧
  (∀ (s : State) (v : Word), s.mode = .idle → hostAct (.setPC v) s = .next { s with PC := v })

/-- Only an absolute JSR changes SP, by taking 2 from it (R16, R33, by decision D10, log 15). -/
def Obligations.StackPointerChangesOnlyByJsr : Prop :=
  ∀ s t : State, step s = .next t →
    t.SP = s.SP ∨ (∃ target, s.fetches (.jsrAbs target)) ∧ t.SP = s.SP - 2

/-- R19: no step writes C, I, D, B or V; Z and N are written only by an LDA, from the loaded byte; no instruction reads
any flag; all are 0 at reset; the host sets each by name; the reserved bit 5 is never anything but 0. -/
def Obligations.FlagsHaveTheStatedWritersAndReaders : Prop :=
  State.reset.P = { C := false, Z := false, I := false, D := false, B := false, V := false, N := false } ∧
  (∀ s t : State, step s = .next t →
    (s.mode = .idle → t.P = s.P) ∧
    (∀ c, s.mode = .running c → c ≤ 0 → t.P = s.P) ∧
    ((∀ i, s.fetches i → i.operation ≠ .lda) → t.P = s.P) ∧
    (∀ c i, s.mode = .running c → 0 < c → s.fetches i → i.operation = .lda →
      t.P = { s.P with Z := decide (t.A = 0x00), N := t.A.getLsbD 7 })) ∧
  (∀ (s t : State) (f : Flags), step s = .next t →
    ∃ t', step { s with P := f } = .next t' ∧ { t' with P := t.P } = t) ∧
  (∀ p : Flags, p.statusByte.getLsbD 5 = false) ∧
  (∀ (s : State) (f : FlagName) (b : Bool), s.mode = .idle →
    hostAct (.setFlag f b) s = .next { s with P := s.P.set f b } ∧ (s.P.set f b).get f = b ∧
    ∀ g, g ≠ f → (s.P.set f b).get g = s.P.get g)

/-- The engine never reads the report of the last call, which is the model's own field (log 2): it changes nothing
else. -/
def Obligations.EngineNeverReadsTheReport : Prop :=
  ∀ (s t : State) (r : Option CallReturn), step s = .next t →
    ∃ t', step { s with returned := r } = .next t' ∧ { t' with returned := t.returned } = t

/-- The cycle table of R103 (derived by the spec; code values by decisions D1 and D2, logs 5 and 6): the count a step
charges, the opcode fetch included, for every instruction and for an unknown opcode. Whether (ind),Y crosses a page
is computed with the pointer's wrap in the zero page (R58, decision D8, log 7) and the 16-bit wrap of the sum (R57,
decision D9, log 14); JSR's six are decision D11 (log 16), an error's one is decision D12 (log 17)
and its report D7 (log 13). -/
def Obligations.StepChargesTheCycleTable : Prop :=
  ∀ (s : State) (c : Int), s.mode = .running c → 0 < c →
    (∀ i, s.fetches i → i.operation = .lda ∨ i.mode = .abs →
      ∃ t, step s = .next t ∧ t.mode = .running (c - s.cyclesOf i)) ∧
    (∀ i, s.fetches i → i.operation = .jsr → i.mode ≠ .abs →
      ∃ t e, step s = .next t ∧ t.returned = some { result := .err e, cyc := c - s.cyclesOf i }) ∧
    ((∀ i, ¬ s.fetches i) →
      ∃ t e, step s = .next t ∧ t.returned = some { result := .err e, cyc := c - 1 })

/-! ### Invariants -/

/-- The reset state meets the invariant (canonical memory is the model's representation, log 11; the bounds are R21's and
R52's, of a count that is an int and is reported by decisions D6 and D7, log 13; no report at reset is log 2). -/
def Obligations.ResetMeetsTheInvariant : Prop := State.reset.Inv

/-- Every step keeps the invariant: the memory stays canonical, a running count stays between -5 and the largest u32, a
report stays in range (R21, R52, derived by the spec, of a count that is an int and is reported by decisions D6 and
D7, log 13; an error's range by D12, log 17; memory's form is log 11, the report field log 2). -/
def Obligations.StepKeepsTheInvariant : Prop :=
  ∀ s t : State, s.Inv → step s = .next t → t.Inv

/-- Every host action on an idle engine keeps the invariant (R24, by decision D13; log 2, log 11, log 12, log 13). -/
def Obligations.HostActionKeepsTheInvariant : Prop :=
  ∀ (a : HostAction) (s t : State), s.Inv → hostAct a s = .next t → t.Inv

/-- In every state that construction, host actions and steps lead to, the last report after Ok holds a count between -5
and 0 and a running count is between -5 and the largest u32 (R21, R52, derived by the spec; the count is an int and is
reported by decisions D6 and D7, log 13). -/
def Obligations.ReachableCountsAreBounded : Prop :=
  ∀ s : State, Reachable s →
    (∀ r, s.returned = some r → r.result = .ok → -5 ≤ r.cyc ∧ r.cyc ≤ 0) ∧
    (∀ c, s.cyc = some c → -5 ≤ c ∧ c ≤ 4294967295)
end

