-- ==== Sys2Proof/Laws/Decode.lean ====
section
/-! SUPPORT. Byte order, the code tables and the decoder: what each answers, for proofs to cite. -/

namespace Sys2Proof

/-! ### Byte order -/

theorem hiLo_toNat (hi lo : Byte) : (hiLo hi lo).toNat = hi.toNat * 256 + lo.toNat := by
  simp only [hiLo, BitVec.toNat_append]
  rw [← Nat.shiftLeft_add_eq_or_of_lt lo.isLt, Nat.shiftLeft_eq]

theorem loByte_toNat (w : Word) : (loByte w).toNat = w.toNat % 256 := by
  simp [loByte, BitVec.extractLsb'_toNat]

theorem hiByte_toNat (w : Word) : (hiByte w).toNat = w.toNat / 256 := by
  have := w.isLt
  simp only [hiByte, BitVec.extractLsb'_toNat, Nat.shiftRight_eq_div_pow]
  omega

@[simp] theorem hiLo_hiByte_loByte (w : Word) : hiLo (hiByte w) (loByte w) = w := by
  apply BitVec.eq_of_toNat_eq
  rw [hiLo_toNat, hiByte_toNat, loByte_toNat]
  omega

@[simp] theorem loByte_hiLo (hi lo : Byte) : loByte (hiLo hi lo) = lo := by
  apply BitVec.eq_of_toNat_eq
  rw [loByte_toNat, hiLo_toNat]
  omega

@[simp] theorem hiByte_hiLo (hi lo : Byte) : hiByte (hiLo hi lo) = hi := by
  apply BitVec.eq_of_toNat_eq
  rw [hiByte_toNat, hiLo_toNat]
  omega

/-! ### The look-ups -/

theorem mem_operation_all (i : Operation) : i ∈ Operation.all := by cases i <;> decide

theorem mem_addrMode_all (m : AddrMode) : m ∈ AddrMode.all := by cases m <;> decide

theorem operation_beq (i j : Operation) : (i == j) = decide (i = j) := rfl

theorem addrMode_beq (m n : AddrMode) : (m == n) = decide (m = n) := rfl

/-- The four constraints of 00_scope.md R6, as propositions. -/
theorem wellFormed_facts {p : Params} (h : p.wellFormed = true) :
    (∀ i j, p.instrCode i = p.instrCode j → i = j) ∧ (∀ i, p.instrCode i &&& 0x1F = 0) ∧
    (∀ m n, p.modeCode m = p.modeCode n → m = n) ∧ (∀ m, p.modeCode m &&& 0xE0 = 0) := by
  simp only [Params.wellFormed, Params.instrCodesDistinct, Params.instrCodesInField, Params.modeCodesDistinct,
    Params.modeCodesInField, Bool.and_eq_true, List.all_eq_true, operation_beq, addrMode_beq] at h
  obtain ⟨⟨⟨h1, h2⟩, h3⟩, h4⟩ := h
  refine ⟨fun i j e => ?_, fun i => ?_, fun m n e => ?_, fun m => ?_⟩
  · simpa [e] using h1 i (mem_operation_all i) j (mem_operation_all j)
  · simpa using h2 i (mem_operation_all i)
  · simpa [e] using h3 m (mem_addrMode_all m) n (mem_addrMode_all n)
  · simpa using h4 m (mem_addrMode_all m)

/-- `lookupI` finds exactly the Instruction whose code is the byte. -/
theorem lookupI_eq_some {p : Params} (h : p.wellFormed = true) (b : Byte) (i : Operation) :
    lookupI p b = some i ↔ p.instrCode i = b := by
  constructor
  · intro hf
    simpa using List.find?_some hf
  · intro hb
    cases hf : lookupI p b with
    | none => simpa [hb] using List.find?_eq_none.mp hf i (mem_operation_all i)
    | some j =>
      have hj : p.instrCode j = b := by simpa using List.find?_some hf
      rw [(wellFormed_facts h).1 j i (hj.trans hb.symm)]

/-- `lookupM` finds exactly the AddressingMode whose code is the byte. -/
theorem lookupM_eq_some {p : Params} (h : p.wellFormed = true) (b : Byte) (m : AddrMode) :
    lookupM p b = some m ↔ p.modeCode m = b := by
  constructor
  · intro hf
    simpa using List.find?_some hf
  · intro hb
    cases hf : lookupM p b with
    | none => simpa [hb] using List.find?_eq_none.mp hf m (mem_addrMode_all m)
    | some n =>
      have hn : p.modeCode n = b := by simpa using List.find?_some hf
      rw [(wellFormed_facts h).2.2.1 n m (hn.trans hb.symm)]

theorem standard_wellFormed : Params.standard.wellFormed = true := by decide

theorem decodeOp_encodeOp_standard (i : Operation) (m : AddrMode) :
    decodeOp Params.standard (encodeOp Params.standard i m) = (some i, some m) := by
  cases i <;> cases m <;> rfl

/-! ### The decoder -/

theorem decode_cons (op : Byte) (rest : List Byte) :
    decode (op :: rest) =
      match decodeOp Params.standard op with
      | (some i, some m) => decodeOperands op i m rest
      | (some _, none) => .error (.unknownOpcode op)
      | (none, some _) => .error (.unknownOpcode op)
      | (none, none) => .error (.unknownOpcode op) := rfl

/-- Decoding at least three bytes fails only as UnknownOpcode of the first of them. -/
theorem decode_three (op b1 b2 : Byte) (e : DecodeError) (h : decode [op, b1, b2] = .error e) :
    e = .unknownOpcode op ∧
    ((decodeOp Params.standard op).1 = none ∨ (decodeOp Params.standard op).2 = none) := by
  rw [decode_cons] at h
  cases hd : decodeOp Params.standard op with
  | mk oi om =>
    rw [hd] at h
    cases oi with
    | none => cases om <;> · injection h with h; exact ⟨h.symm, .inl rfl⟩
    | some i =>
      cases om with
      | none => injection h with h; exact ⟨h.symm, .inr rfl⟩
      | some m => cases i <;> cases m <;> cases h

/-- A decoded instruction's opcode byte decodes to its operation and mode. -/
theorem decode_opcode (op : Byte) (bs rest : List Byte) (i : Instr) (h : decode (op :: bs) = .ok (i, rest)) :
    decodeOp Params.standard op = (some i.operation, some i.mode) := by
  rw [decode_cons] at h
  cases hd : decodeOp Params.standard op with
  | mk oi om =>
    rw [hd] at h
    cases oi with
    | none => cases om <;> cases h
    | some o =>
      cases om with
      | none => cases h
      | some m =>
        cases o <;> cases m <;> simp only [decodeOperands] at h <;>
          first
          | (cases h; rfl)
          | (cases bs with
             | nil => cases h
             | cons b bs =>
               first
               | (cases h; rfl)
               | (cases bs with
                  | nil => cases h
                  | cons b' bs => cases h; rfl))

end Sys2Proof
end

