-- ==== Sys2Proof/Laws/State.lean ====
section
/-! SUPPORT. One lemma per field of State per named update, true by `rfl`, and one per flag per flag update, so
that no later proof unfolds a record update. -/

namespace Sys2Proof.Machine

/-! ### `memWrite` -/

@[simp] theorem memWrite_mem (a : Word) (v : Byte) (s : State) : (memWrite a v s).mem = s.mem.write a.toNat v := rfl
@[simp] theorem memWrite_A (a : Word) (v : Byte) (s : State) : (memWrite a v s).A = s.A := rfl
@[simp] theorem memWrite_X (a : Word) (v : Byte) (s : State) : (memWrite a v s).X = s.X := rfl
@[simp] theorem memWrite_Y (a : Word) (v : Byte) (s : State) : (memWrite a v s).Y = s.Y := rfl
@[simp] theorem memWrite_PC (a : Word) (v : Byte) (s : State) : (memWrite a v s).PC = s.PC := rfl
@[simp] theorem memWrite_SP (a : Word) (v : Byte) (s : State) : (memWrite a v s).SP = s.SP := rfl
@[simp] theorem memWrite_P (a : Word) (v : Byte) (s : State) : (memWrite a v s).P = s.P := rfl
@[simp] theorem memWrite_mode (a : Word) (v : Byte) (s : State) : (memWrite a v s).mode = s.mode := rfl
@[simp] theorem memWrite_returned (a : Word) (v : Byte) (s : State) : (memWrite a v s).returned = s.returned := rfl

/-! ### `charge` -/

@[simp] theorem charge_mem (n : Int) (s : State) : (charge n s).mem = s.mem := rfl
@[simp] theorem charge_A (n : Int) (s : State) : (charge n s).A = s.A := rfl
@[simp] theorem charge_X (n : Int) (s : State) : (charge n s).X = s.X := rfl
@[simp] theorem charge_Y (n : Int) (s : State) : (charge n s).Y = s.Y := rfl
@[simp] theorem charge_PC (n : Int) (s : State) : (charge n s).PC = s.PC := rfl
@[simp] theorem charge_SP (n : Int) (s : State) : (charge n s).SP = s.SP := rfl
@[simp] theorem charge_P (n : Int) (s : State) : (charge n s).P = s.P := rfl
@[simp] theorem charge_mode (n : Int) (s : State) : (charge n s).mode = s.mode.charge n := rfl
@[simp] theorem charge_returned (n : Int) (s : State) : (charge n s).returned = s.returned := rfl

/-! ### `advance` -/

@[simp] theorem advance_mem (s : State) : (advance s).mem = s.mem := rfl
@[simp] theorem advance_A (s : State) : (advance s).A = s.A := rfl
@[simp] theorem advance_X (s : State) : (advance s).X = s.X := rfl
@[simp] theorem advance_Y (s : State) : (advance s).Y = s.Y := rfl
@[simp] theorem advance_PC (s : State) : (advance s).PC = s.PC + 1 := rfl
@[simp] theorem advance_SP (s : State) : (advance s).SP = s.SP := rfl
@[simp] theorem advance_P (s : State) : (advance s).P = s.P := rfl
@[simp] theorem advance_mode (s : State) : (advance s).mode = s.mode.charge 1 := rfl
@[simp] theorem advance_returned (s : State) : (advance s).returned = s.returned := rfl

/-! ### `push16` -/

@[simp] theorem push16_mem (v : Word) (s : State) : (push16 v s).mem = (s.mem.write (pushLoAddr s.SP).toNat (loByte v)).write (pushHiAddr s.SP).toNat (hiByte v) := rfl
@[simp] theorem push16_A (v : Word) (s : State) : (push16 v s).A = s.A := rfl
@[simp] theorem push16_X (v : Word) (s : State) : (push16 v s).X = s.X := rfl
@[simp] theorem push16_Y (v : Word) (s : State) : (push16 v s).Y = s.Y := rfl
@[simp] theorem push16_PC (v : Word) (s : State) : (push16 v s).PC = s.PC := rfl
@[simp] theorem push16_SP (v : Word) (s : State) : (push16 v s).SP = s.SP - 2 := rfl
@[simp] theorem push16_P (v : Word) (s : State) : (push16 v s).P = s.P := rfl
@[simp] theorem push16_mode (v : Word) (s : State) : (push16 v s).mode = s.mode := rfl
@[simp] theorem push16_returned (v : Word) (s : State) : (push16 v s).returned = s.returned := rfl

/-! ### `endCall` -/

@[simp] theorem endCall_mem (r : CallResult) (s : State) : (endCall r s).mem = s.mem := rfl
@[simp] theorem endCall_A (r : CallResult) (s : State) : (endCall r s).A = s.A := rfl
@[simp] theorem endCall_X (r : CallResult) (s : State) : (endCall r s).X = s.X := rfl
@[simp] theorem endCall_Y (r : CallResult) (s : State) : (endCall r s).Y = s.Y := rfl
@[simp] theorem endCall_PC (r : CallResult) (s : State) : (endCall r s).PC = s.PC := rfl
@[simp] theorem endCall_SP (r : CallResult) (s : State) : (endCall r s).SP = s.SP := rfl
@[simp] theorem endCall_P (r : CallResult) (s : State) : (endCall r s).P = s.P := rfl
@[simp] theorem endCall_mode (r : CallResult) (s : State) : (endCall r s).mode = .idle := rfl

/-! ### `raise` -/

@[simp] theorem raise_mem (e : EngineError) (s : State) : (raise e s).mem = s.mem := rfl
@[simp] theorem raise_A (e : EngineError) (s : State) : (raise e s).A = s.A := rfl
@[simp] theorem raise_X (e : EngineError) (s : State) : (raise e s).X = s.X := rfl
@[simp] theorem raise_Y (e : EngineError) (s : State) : (raise e s).Y = s.Y := rfl
@[simp] theorem raise_PC (e : EngineError) (s : State) : (raise e s).PC = s.PC := rfl
@[simp] theorem raise_SP (e : EngineError) (s : State) : (raise e s).SP = s.SP := rfl
@[simp] theorem raise_P (e : EngineError) (s : State) : (raise e s).P = s.P := rfl
@[simp] theorem raise_mode (e : EngineError) (s : State) : (raise e s).mode = .idle := rfl

/-! ### `beginCall` -/

@[simp] theorem beginCall_mem (b : BitVec 32) (s : State) : (beginCall b s).mem = s.mem := rfl
@[simp] theorem beginCall_A (b : BitVec 32) (s : State) : (beginCall b s).A = s.A := rfl
@[simp] theorem beginCall_X (b : BitVec 32) (s : State) : (beginCall b s).X = s.X := rfl
@[simp] theorem beginCall_Y (b : BitVec 32) (s : State) : (beginCall b s).Y = s.Y := rfl
@[simp] theorem beginCall_PC (b : BitVec 32) (s : State) : (beginCall b s).PC = s.PC := rfl
@[simp] theorem beginCall_SP (b : BitVec 32) (s : State) : (beginCall b s).SP = s.SP := rfl
@[simp] theorem beginCall_P (b : BitVec 32) (s : State) : (beginCall b s).P = s.P := rfl
@[simp] theorem beginCall_mode (b : BitVec 32) (s : State) : (beginCall b s).mode = .running b.toNat := rfl
@[simp] theorem beginCall_returned (b : BitVec 32) (s : State) : (beginCall b s).returned = none := rfl

/-! ### `loadA` -/

@[simp] theorem loadA_mem (r : Byte × State) : (loadA r).mem = r.2.mem := rfl
@[simp] theorem loadA_A (r : Byte × State) : (loadA r).A = r.1 := rfl
@[simp] theorem loadA_X (r : Byte × State) : (loadA r).X = r.2.X := rfl
@[simp] theorem loadA_Y (r : Byte × State) : (loadA r).Y = r.2.Y := rfl
@[simp] theorem loadA_PC (r : Byte × State) : (loadA r).PC = r.2.PC := rfl
@[simp] theorem loadA_SP (r : Byte × State) : (loadA r).SP = r.2.SP := rfl
@[simp] theorem loadA_P (r : Byte × State) : (loadA r).P = r.2.P.setZN r.1 := rfl
@[simp] theorem loadA_mode (r : Byte × State) : (loadA r).mode = r.2.mode := rfl
@[simp] theorem loadA_returned (r : Byte × State) : (loadA r).returned = r.2.returned := rfl

/-! ### `jumpToSubroutine` -/

@[simp] theorem jumpToSubroutine_mem (t : Word) (s : State) : (jumpToSubroutine t s).mem = (push16 s.PC s).mem := rfl
@[simp] theorem jumpToSubroutine_A (t : Word) (s : State) : (jumpToSubroutine t s).A = s.A := rfl
@[simp] theorem jumpToSubroutine_X (t : Word) (s : State) : (jumpToSubroutine t s).X = s.X := rfl
@[simp] theorem jumpToSubroutine_Y (t : Word) (s : State) : (jumpToSubroutine t s).Y = s.Y := rfl
@[simp] theorem jumpToSubroutine_PC (t : Word) (s : State) : (jumpToSubroutine t s).PC = t := rfl
@[simp] theorem jumpToSubroutine_SP (t : Word) (s : State) : (jumpToSubroutine t s).SP = s.SP - 2 := rfl
@[simp] theorem jumpToSubroutine_P (t : Word) (s : State) : (jumpToSubroutine t s).P = s.P := rfl
@[simp] theorem jumpToSubroutine_mode (t : Word) (s : State) : (jumpToSubroutine t s).mode = s.mode.charge 3 := rfl
@[simp] theorem jumpToSubroutine_returned (t : Word) (s : State) : (jumpToSubroutine t s).returned = s.returned := rfl

/-! ### `endCall` and `raise` in a running engine, and the counter -/

theorem endCall_returned {s : State} {c : Int} (r : CallResult) (h : s.mode = .running c) :
    (endCall r s).returned = some { result := r, cyc := c } := by
  simp [endCall, h]

theorem raise_returned {s : State} {c : Int} (e : EngineError) (h : s.mode = .running c) :
    (raise e s).returned = some { result := .err e, cyc := c } :=
  endCall_returned _ h

@[simp] theorem charge_idle (n : Int) : Mode.idle.charge n = .idle := rfl

@[simp] theorem charge_running (n c : Int) : (Mode.running c).charge n = .running (c - n) := rfl

theorem charge_charge (m n : Int) (s : State) : charge m (charge n s) = charge (n + m) s := by
  cases h : s.mode <;> simp [charge, h]; omega

theorem cyc_eq_some {s : State} {c : Int} : s.cyc = some c ↔ s.mode = .running c := by
  cases h : s.mode <;> simp [State.cyc, h]

/-! ### `memRead` under updates that leave memory alone -/

@[simp] theorem memRead_charge (a : Word) (n : Int) (s : State) : memRead a (charge n s) = memRead a s := rfl
@[simp] theorem memRead_advance (a : Word) (s : State) : memRead a (advance s) = memRead a s := rfl
@[simp] theorem memRead_endCall (a : Word) (r : CallResult) (s : State) : memRead a (endCall r s) = memRead a s := rfl
@[simp] theorem memRead_raise (a : Word) (e : EngineError) (s : State) : memRead a (raise e s) = memRead a s := rfl
@[simp] theorem memRead_beginCall (a : Word) (b : BitVec 32) (s : State) : memRead a (beginCall b s) = memRead a s := rfl
@[simp] theorem memRead_loadA (a : Word) (r : Byte × State) : memRead a (loadA r) = memRead a r.2 := rfl

/-! ### `Flags.setZN` and `Flags.set` -/

@[simp] theorem setZN_C (v : Byte) (p : Flags) : (p.setZN v).C = p.C := rfl
@[simp] theorem setZN_Z (v : Byte) (p : Flags) : (p.setZN v).Z = decide (v = 0x00) := rfl
@[simp] theorem setZN_I (v : Byte) (p : Flags) : (p.setZN v).I = p.I := rfl
@[simp] theorem setZN_D (v : Byte) (p : Flags) : (p.setZN v).D = p.D := rfl
@[simp] theorem setZN_B (v : Byte) (p : Flags) : (p.setZN v).B = p.B := rfl
@[simp] theorem setZN_V (v : Byte) (p : Flags) : (p.setZN v).V = p.V := rfl
@[simp] theorem setZN_N (v : Byte) (p : Flags) : (p.setZN v).N = v.getLsbD 7 := rfl

@[simp] theorem get_set_same (p : Flags) (f : FlagName) (b : Bool) : (p.set f b).get f = b := by
  cases f <;> rfl

theorem get_set_other (p : Flags) {f g : FlagName} (b : Bool) (h : g ≠ f) : (p.set f b).get g = p.get g := by
  cases f <;> cases g <;> first | rfl | exact absurd rfl h

end Sys2Proof.Machine
end

