-- ==== Sys2Proof/Laws/Memory.lean ====
section
/-! SUPPORT. The laws of memory: a write reads back and changes one byte, and every memory operation keeps the
canonical form. -/

namespace Sys2Proof.Machine

/-! ### Reading after an erase, an insertion and a write -/

theorem read_erase (m : Memory) (a b : Nat) :
    (m.erase a).read b = if b = a then Memory.unlisted else m.read b := by
  induction m with
  | nil => simp [Memory.erase, Memory.read]
  | cons cell rest ih =>
    obtain ⟨k, v⟩ := cell
    simp only [Memory.erase] at ih
    by_cases hk : k = a
    · subst hk
      by_cases hb : k = b
      · subst hb
        simpa [Memory.erase] using ih
      · simp [Memory.erase, Memory.read, ih, hb]
    · by_cases hb : k = b
      · subst hb
        simp [Memory.erase, Memory.read, hk]
      · simp [Memory.erase, Memory.read, hk, hb, ih]

theorem read_insertCell (m : Memory) (a : Nat) (v : Byte) (b : Nat) (hm : ∀ cell ∈ m, cell.1 ≠ a) :
    (Memory.insertCell a v m).read b = if b = a then v else m.read b := by
  induction m with
  | nil => simp [Memory.insertCell, Memory.read, eq_comm]
  | cons cell rest ih =>
    obtain ⟨k, w⟩ := cell
    have hk : k ≠ a := hm (k, w) (by simp)
    have hrest : ∀ cell ∈ rest, cell.1 ≠ a := fun c hc => hm c (by simp [hc])
    simp only [Memory.insertCell]
    split
    · simp [Memory.read, eq_comm (a := a)]
    · by_cases hb : k = b
      · subst hb
        simp [Memory.read, hk]
      · simp [Memory.read, hb, ih hrest]

theorem erase_avoids (m : Memory) (a : Nat) : ∀ cell ∈ m.erase a, cell.1 ≠ a := by
  intro cell hc
  simpa using (List.mem_filter.mp hc).2

/-- A read after a write: the written byte at its address, the old one everywhere else (20_memory.md R27). -/
theorem read_write (m : Memory) (a : Nat) (v : Byte) (b : Nat) :
    (m.write a v).read b = if b = a then v else m.read b := by
  unfold Memory.write
  split
  · next h => simp [read_erase, h]
  · rw [read_insertCell _ _ _ _ (erase_avoids m a), read_erase]
    split <;> rfl

/-! ### The canonical form -/

/-- The range and the value of one cell in the canonical form. -/
def cellOk (cell : Host.Cell) : Bool := decide (cell.1 < 65536) && (cell.2 != Memory.unlisted)

theorem wf_iff (m : Memory) : m.wf = true ↔ Memory.risingFrom 0 m = true ∧ m.all cellOk = true := by
  unfold Memory.wf
  rw [Bool.and_eq_true]
  rfl

theorem risingFrom_mono {lo lo' : Nat} (h : lo' ≤ lo) :
    ∀ m, Memory.risingFrom lo m = true → Memory.risingFrom lo' m = true
  | [], _ => rfl
  | (k, v) :: rest, hm => by
    simp only [Memory.risingFrom, Bool.and_eq_true, decide_eq_true_eq] at hm ⊢
    exact ⟨by omega, hm.2⟩

theorem risingFrom_erase (a : Nat) :
    ∀ (m : Memory) (lo : Nat), Memory.risingFrom lo m = true → Memory.risingFrom lo (m.erase a) = true
  | [], _, _ => rfl
  | (k, v) :: rest, lo, hm => by
    simp only [Memory.risingFrom, Bool.and_eq_true, decide_eq_true_eq] at hm
    have ih := risingFrom_erase a rest (k + 1) hm.2
    by_cases hk : k = a
    · simpa [Memory.erase, hk] using risingFrom_mono (by omega) _ ih
    · simpa [Memory.erase, hk, Memory.risingFrom, hm.1] using ih

theorem risingFrom_insertCell (a : Nat) (v : Byte) :
    ∀ (m : Memory) (lo : Nat), lo ≤ a → (∀ cell ∈ m, cell.1 ≠ a) → Memory.risingFrom lo m = true →
      Memory.risingFrom lo (Memory.insertCell a v m) = true
  | [], lo, hlo, _, _ => by simp [Memory.insertCell, Memory.risingFrom, hlo]
  | (k, w) :: rest, lo, hlo, hne, hm => by
    simp only [Memory.risingFrom, Bool.and_eq_true, decide_eq_true_eq] at hm
    have hk : k ≠ a := hne (k, w) (by simp)
    simp only [Memory.insertCell]
    split
    · simp only [Memory.risingFrom, Bool.and_eq_true, decide_eq_true_eq]
      exact ⟨hlo, by omega, hm.2⟩
    · simp only [Memory.risingFrom, Bool.and_eq_true, decide_eq_true_eq]
      exact ⟨hm.1, risingFrom_insertCell a v rest (k + 1) (by omega) (fun c hc => hne c (by simp [hc])) hm.2⟩

theorem all_insertCell (a : Nat) (v : Byte) (ok : Host.Cell → Bool) (h : ok (a, v) = true) :
    ∀ m : Memory, m.all ok = true → (Memory.insertCell a v m).all ok = true
  | [], _ => by simp [Memory.insertCell, h]
  | (k, w) :: rest, hm => by
    simp only [List.all_cons, Bool.and_eq_true] at hm
    simp only [Memory.insertCell]
    split
    · simp [h, hm.1, hm.2]
    · simp [hm.1, all_insertCell a v ok h rest hm.2]

theorem all_erase (a : Nat) (ok : Host.Cell → Bool) (m : Memory) (hm : m.all ok = true) :
    (m.erase a).all ok = true := by
  simp only [List.all_eq_true] at hm ⊢
  exact fun c hc => hm c (List.mem_filter.mp hc).1

/-- Forgetting a byte keeps the canonical form. -/
theorem wf_erase (m : Memory) (a : Nat) (h : m.wf = true) : (m.erase a).wf = true := by
  rw [wf_iff] at h ⊢
  exact ⟨risingFrom_erase a m 0 h.1, all_erase a _ m h.2⟩

/-- A write inside the address space keeps the canonical form. -/
theorem wf_write (m : Memory) (a : Nat) (v : Byte) (ha : a < 65536) (h : m.wf = true) :
    (m.write a v).wf = true := by
  have he := (wf_iff _).mp (wf_erase m a h)
  unfold Memory.write
  split
  · exact wf_erase m a h
  · next hv =>
    rw [wf_iff]
    refine ⟨risingFrom_insertCell a v _ 0 (by omega) (erase_avoids m a) he.1, ?_⟩
    exact all_insertCell a v _ (by simp [cellOk, ha, hv]) _ he.2

theorem wf_reset : State.reset.mem.wf = true := rfl

/-! ### The same at the bus -/

theorem memWrite_wf (a : Word) (v : Byte) (s : State) (h : s.mem.wf = true) : (memWrite a v s).mem.wf = true :=
  wf_write _ _ _ a.isLt h

theorem push16_wf (v : Word) (s : State) (h : s.mem.wf = true) : (push16 v s).mem.wf = true :=
  memWrite_wf _ _ _ (memWrite_wf _ _ _ h)

theorem jumpToSubroutine_wf (t : Word) (s : State) (h : s.mem.wf = true) :
    (jumpToSubroutine t s).mem.wf = true :=
  push16_wf _ _ h

theorem placeBytes_wf : ∀ (bs : List Byte) (a : Word) (s : State), s.mem.wf = true →
    (placeBytes a bs s).mem.wf = true
  | [], _, _, h => h
  | b :: rest, a, s, h => placeBytes_wf rest (a + 1) _ (memWrite_wf a b s h)

end Sys2Proof.Machine
end

