-- ==== Sys2Proof/Laws/Exec.lean ====
section
/-! SUPPORT. One lemma per shared operation that says everything it can do, and the inversion of `exec` and `step`:
later proofs cite these and unfold nothing. -/

namespace Sys2Proof.Machine

/-! ### Guards, fetches and reads -/

theorem duringCall_eq_next {s t u : State} :
    duringCall s t = .next u ↔ (∃ c, s.mode = .running c) ∧ u = t := by
  cases h : s.mode <;> simp [duringCall, h, eq_comm]

theorem duringCall_running {s : State} {c : Int} (t : State) (h : s.mode = .running c) :
    duringCall s t = .next t := by
  simp [duringCall, h]

theorem advance_eq {s : State} {c : Int} (h : s.mode = .running c) :
    advance s = { s with PC := s.PC + 1, mode := .running (c - 1) } := by
  simp [advance, charge, h]

theorem charge_eq {s : State} {c : Int} (n : Int) (h : s.mode = .running c) :
    charge n s = { s with mode := .running (c - n) } := by
  simp [charge, h]

theorem raise_eq {s : State} {c : Int} (e : EngineError) (h : s.mode = .running c) :
    raise e s = { s with mode := .idle, returned := some { result := .err e, cyc := c } } := by
  simp [raise, endCall, h]

theorem endCall_eq {s : State} {c : Int} (r : CallResult) (h : s.mode = .running c) :
    endCall r s = { s with mode := .idle, returned := some { result := r, cyc := c } } := by
  simp [endCall, h]

theorem advance_advance_eq {s : State} {c : Int} (h : s.mode = .running c) :
    advance (advance s) = { s with PC := s.PC + 2, mode := .running (c - 2) } := by
  simp [charge, advance, h, BitVec.add_assoc]; omega

theorem charge_advance_eq {s : State} {c : Int} (n : Int) (h : s.mode = .running c) :
    charge n (advance s) = { s with PC := s.PC + 1, mode := .running (c - (1 + n)) } := by
  simp [charge, advance, h]; omega

theorem charge_advance_advance_eq {s : State} {c : Int} (n : Int) (h : s.mode = .running c) :
    charge n (advance (advance s)) = { s with PC := s.PC + 2, mode := .running (c - (2 + n)) } := by
  simp [charge, advance, h, BitVec.add_assoc]; omega

/-- Reading depends on the memory alone. -/
theorem memRead_congr {s t : State} (a : Word) (h : t.mem = s.mem) : memRead a t = memRead a s := by
  unfold memRead; rw [h]

/-- A fetch that is no instruction is a decode error. -/
theorem not_fetches_iff {s : State} : (∀ i, ¬ s.fetches i) ↔ ∃ e, decode (fetchWindow s) = .error e := by
  cases h : decode (fetchWindow s) with
  | error e => simp [State.fetches, h]
  | ok r => simp [State.fetches, h]; exact ⟨r.1, r.2, rfl⟩

/-- The opcode byte of a fetched instruction decodes to its operation and mode. -/
theorem fetches_opcode {s : State} {i : Instr} (h : s.fetches i) :
    decodeOp Params.standard (memRead s.PC s) = (some i.operation, some i.mode) := by
  obtain ⟨r, hr⟩ := h
  exact decode_opcode _ _ _ _ hr

/-! ### The resolver: the value and the charge of each form -/

@[simp] theorem readPointer_eq (w : ZpPtrWrap) (z : Byte) (s : State) :
    readPointer w z s = (hiLo (memRead (zpNext w z) s) (memRead (zext16 z) s), charge 2 s) := by
  simp only [readPointer, readByte, memRead_charge, charge_charge]
  rfl

theorem operandZpX_eq (zz : Byte) (s : State) :
    operandZpX zz s = (memRead (zext16 (zz + s.X)) s, charge 2 s) := by
  simp only [operandZpX, zpIndexed, readByte, memRead_charge, charge_charge]
  rfl

theorem operandIndX_eq (w : ZpPtrWrap) (zz : Byte) (s : State) :
    operandIndX w zz s =
      (memRead (hiLo (memRead (zpNext w (zz + s.X)) s) (memRead (zext16 (zz + s.X)) s)) s, charge 4 s) := by
  simp only [operandIndX, zpIndexed, readPointer_eq, readByte, memRead_charge, charge_charge]
  rfl

/-- The pointer of (ind),Y before Y is added. -/
def indYBase (w : ZpPtrWrap) (zz : Byte) (s : State) : Word :=
  hiLo (memRead (zpNext w zz) s) (memRead (zext16 zz) s)

theorem operandIndY_eq (w : ZpPtrWrap) (zz : Byte) (s : State) :
    operandIndY w zz s =
      (memRead (indYBase w zz s + zext16 s.Y) s,
        charge (if cross (indYBase w zz s) (indYBase w zz s + zext16 s.Y) then 4 else 3) s) := by
  simp only [operandIndY, readPointer_eq, readByte, charge_Y, indYBase]
  split <;> simp [charge_charge, *]

/-! ### JSR and the whole step -/

/-- JSR from its resolved target: the pushed bytes, SP, PC and the charge; everything else stays. -/
theorem jumpToSubroutine_eq (t : Word) (s : State) :
    jumpToSubroutine t s =
      { s with mem := (push16 s.PC s).mem, SP := s.SP - 2, PC := t, mode := s.mode.charge 3 } := rfl

/-- The state after an LDA differs from the one before only in A, Z, N, PC and the count, which falls by 1 to 5. -/
structure LoadedFrom (s t : State) (c : Int) : Prop where
  mem : t.mem = s.mem
  X : t.X = s.X
  Y : t.Y = s.Y
  SP : t.SP = s.SP
  P : t.P = s.P.setZN t.A
  returned : t.returned = s.returned
  mode : ∃ n : Int, 1 ≤ n ∧ n ≤ 5 ∧ t.mode = .running (c - n)

/-- Everything `exec` can do when it answers a next state. -/
theorem exec_cases {i : Instr} {s t : State} (h : exec i s = .next t) :
    ∃ c, s.mode = .running c ∧
      ((i.operation = .lda ∧ LoadedFrom s t c) ∨
       (∃ target, i = .jsrAbs target ∧ t = jumpToSubroutine target (advance (advance s))) ∨
       (i.operation = .jsr ∧ i.mode ≠ .abs ∧ t = raise (.unhandledAddressingMode i.mode) s)) := by
  cases i with
  | ldaIndX zz =>
    obtain ⟨⟨c, hc⟩, rfl⟩ := duringCall_eq_next.mp h
    refine ⟨c, hc, .inl ⟨rfl, ?_⟩⟩
    rw [operandIndX_eq]
    exact ⟨rfl, rfl, rfl, rfl, rfl, rfl, 5, by omega, by omega, by simp [hc]; omega⟩
  | ldaZp zz =>
    obtain ⟨⟨c, hc⟩, rfl⟩ := duringCall_eq_next.mp h
    exact ⟨c, hc, .inl ⟨rfl, rfl, rfl, rfl, rfl, rfl, rfl, 2, by omega, by omega,
      by simp [operandZp, readByte, hc]; omega⟩⟩
  | ldaImm nn =>
    obtain ⟨⟨c, hc⟩, rfl⟩ := duringCall_eq_next.mp h
    exact ⟨c, hc, .inl ⟨rfl, rfl, rfl, rfl, rfl, rfl, rfl, 1, by omega, by omega, by simp [operandImm, hc]⟩⟩
  | ldaAbs addr =>
    obtain ⟨⟨c, hc⟩, rfl⟩ := duringCall_eq_next.mp h
    exact ⟨c, hc, .inl ⟨rfl, rfl, rfl, rfl, rfl, rfl, rfl, 3, by omega, by omega,
      by simp [operandAbs, readByte, hc]; omega⟩⟩
  | ldaIndY zz =>
    obtain ⟨⟨c, hc⟩, rfl⟩ := duringCall_eq_next.mp h
    refine ⟨c, hc, .inl ⟨rfl, ?_⟩⟩
    rw [operandIndY_eq]
    split
    · exact ⟨rfl, rfl, rfl, rfl, rfl, rfl, 5, by omega, by omega, by simp [hc]; omega⟩
    · exact ⟨rfl, rfl, rfl, rfl, rfl, rfl, 4, by omega, by omega, by simp [hc]; omega⟩
  | ldaZpX zz =>
    obtain ⟨⟨c, hc⟩, rfl⟩ := duringCall_eq_next.mp h
    refine ⟨c, hc, .inl ⟨rfl, ?_⟩⟩
    rw [operandZpX_eq]
    exact ⟨rfl, rfl, rfl, rfl, rfl, rfl, 3, by omega, by omega, by simp [hc]; omega⟩
  | ldaAbsY base =>
    obtain ⟨⟨c, hc⟩, rfl⟩ := duringCall_eq_next.mp h
    exact ⟨c, hc, .inl ⟨rfl, rfl, rfl, rfl, rfl, rfl, rfl, 3, by omega, by omega,
      by simp [operandAbsY, readByte, hc]; omega⟩⟩
  | ldaAbsX base =>
    obtain ⟨⟨c, hc⟩, rfl⟩ := duringCall_eq_next.mp h
    exact ⟨c, hc, .inl ⟨rfl, rfl, rfl, rfl, rfl, rfl, rfl, 3, by omega, by omega,
      by simp [operandAbsX, readByte, hc]; omega⟩⟩
  | jsrAbs target =>
    obtain ⟨⟨c, hc⟩, rfl⟩ := duringCall_eq_next.mp h
    exact ⟨c, hc, .inr (.inl ⟨target, rfl, rfl⟩)⟩
  | jsrIndX =>
    obtain ⟨⟨c, hc⟩, rfl⟩ := duringCall_eq_next.mp h
    exact ⟨c, hc, .inr (.inr ⟨rfl, by decide, rfl⟩)⟩
  | jsrZp =>
    obtain ⟨⟨c, hc⟩, rfl⟩ := duringCall_eq_next.mp h
    exact ⟨c, hc, .inr (.inr ⟨rfl, by decide, rfl⟩)⟩
  | jsrImm =>
    obtain ⟨⟨c, hc⟩, rfl⟩ := duringCall_eq_next.mp h
    exact ⟨c, hc, .inr (.inr ⟨rfl, by decide, rfl⟩)⟩
  | jsrIndY =>
    obtain ⟨⟨c, hc⟩, rfl⟩ := duringCall_eq_next.mp h
    exact ⟨c, hc, .inr (.inr ⟨rfl, by decide, rfl⟩)⟩
  | jsrZpX =>
    obtain ⟨⟨c, hc⟩, rfl⟩ := duringCall_eq_next.mp h
    exact ⟨c, hc, .inr (.inr ⟨rfl, by decide, rfl⟩)⟩
  | jsrAbsY =>
    obtain ⟨⟨c, hc⟩, rfl⟩ := duringCall_eq_next.mp h
    exact ⟨c, hc, .inr (.inr ⟨rfl, by decide, rfl⟩)⟩
  | jsrAbsX =>
    obtain ⟨⟨c, hc⟩, rfl⟩ := duringCall_eq_next.mp h
    exact ⟨c, hc, .inr (.inr ⟨rfl, by decide, rfl⟩)⟩

theorem handled_standard (i : Operation) : i ∈ Params.standard.handled := by cases i <;> decide

/-- Everything `step` can do when it answers a next state. -/
theorem step_cases {s t : State} (h : step s = .next t) :
    (s.mode = .idle ∧ t = s) ∨
    (∃ c, s.mode = .running c ∧ c ≤ 0 ∧ t = endCall .ok s) ∨
    (∃ c, s.mode = .running c ∧ 0 < c ∧
      ((∃ e, decode (fetchWindow s) = .error e ∧ t = raise (.unknownOpcode (memRead s.PC s)) (advance s)) ∨
       (∃ i, s.fetches i ∧ exec i (advance s) = .next t))) := by
  unfold step loopPass at h
  cases hm : s.mode with
  | idle =>
    rw [hm] at h
    injection h with h
    exact .inl ⟨rfl, h.symm⟩
  | running c =>
    rw [hm] at h
    dsimp only at h
    split at h
    · next hc =>
      refine .inr (.inr ⟨c, rfl, hc, ?_⟩)
      cases hd : decode (fetchWindow s) with
      | error e =>
        rw [hd] at h
        injection h with h
        exact .inl ⟨e, rfl, h.symm⟩
      | ok r =>
        rw [hd] at h
        simp only [dispatchDecoded, handled_standard, if_true] at h
        exact .inr ⟨r.1, ⟨r.2, hd⟩, h⟩
    · next hc =>
      injection h with h
      exact .inr (.inl ⟨c, rfl, by omega, h.symm⟩)

end Sys2Proof.Machine
end

