-- ==== Sys2Proof/Laws/PerInstr.lean ====
section
/-! SUPPORT. Facts of every instruction as syntax, one lemma per constructor. Family `OpcodeByte`: the opcode byte
decodes to the instruction's two halves, and the length is one more than its mode's operand bytes. -/

namespace Sys2Proof.Laws

/-- How many operand bytes the mode takes (30_encoding.md R40). -/
def modeOperandBytes : AddrMode → Nat
  | .indX => 1
  | .zp => 1
  | .imm => 1
  | .abs => 2
  | .indY => 1
  | .zpX => 1
  | .absY => 2
  | .absX => 2

/-- The opcode byte of the encoding names the operation and the mode, and the encoding is as long as the mode says
where the instruction executes, one byte where it raises an error (30_encoding.md R41, R42, R45). -/
def OpcodeByte.Statement (i : Instr) : Prop :=
  decodeOp Params.standard (encodeOp Params.standard i.operation i.mode) = (some i.operation, some i.mode) ∧
  (encode i).length = i.length ∧
  i.length = if i.operation = .jsr ∧ i.mode ≠ .abs then 1 else 1 + modeOperandBytes i.mode

theorem OpcodeByte.ldaIndX (zz : Byte) : OpcodeByte.Statement (.ldaIndX zz) := ⟨decodeOp_encodeOp_standard _ _, rfl, rfl⟩
theorem OpcodeByte.ldaZp (zz : Byte) : OpcodeByte.Statement (.ldaZp zz) := ⟨decodeOp_encodeOp_standard _ _, rfl, rfl⟩
theorem OpcodeByte.ldaImm (nn : Byte) : OpcodeByte.Statement (.ldaImm nn) := ⟨decodeOp_encodeOp_standard _ _, rfl, rfl⟩
theorem OpcodeByte.ldaAbs (addr : Word) : OpcodeByte.Statement (.ldaAbs addr) := ⟨decodeOp_encodeOp_standard _ _, rfl, rfl⟩
theorem OpcodeByte.ldaIndY (zz : Byte) : OpcodeByte.Statement (.ldaIndY zz) := ⟨decodeOp_encodeOp_standard _ _, rfl, rfl⟩
theorem OpcodeByte.ldaZpX (zz : Byte) : OpcodeByte.Statement (.ldaZpX zz) := ⟨decodeOp_encodeOp_standard _ _, rfl, rfl⟩
theorem OpcodeByte.ldaAbsY (base : Word) : OpcodeByte.Statement (.ldaAbsY base) := ⟨decodeOp_encodeOp_standard _ _, rfl, rfl⟩
theorem OpcodeByte.ldaAbsX (base : Word) : OpcodeByte.Statement (.ldaAbsX base) := ⟨decodeOp_encodeOp_standard _ _, rfl, rfl⟩
theorem OpcodeByte.jsrAbs (target : Word) : OpcodeByte.Statement (.jsrAbs target) := ⟨decodeOp_encodeOp_standard _ _, rfl, rfl⟩
theorem OpcodeByte.jsrIndX : OpcodeByte.Statement .jsrIndX := ⟨decodeOp_encodeOp_standard _ _, rfl, rfl⟩
theorem OpcodeByte.jsrZp : OpcodeByte.Statement .jsrZp := ⟨decodeOp_encodeOp_standard _ _, rfl, rfl⟩
theorem OpcodeByte.jsrImm : OpcodeByte.Statement .jsrImm := ⟨decodeOp_encodeOp_standard _ _, rfl, rfl⟩
theorem OpcodeByte.jsrIndY : OpcodeByte.Statement .jsrIndY := ⟨decodeOp_encodeOp_standard _ _, rfl, rfl⟩
theorem OpcodeByte.jsrZpX : OpcodeByte.Statement .jsrZpX := ⟨decodeOp_encodeOp_standard _ _, rfl, rfl⟩
theorem OpcodeByte.jsrAbsY : OpcodeByte.Statement .jsrAbsY := ⟨decodeOp_encodeOp_standard _ _, rfl, rfl⟩
theorem OpcodeByte.jsrAbsX : OpcodeByte.Statement .jsrAbsX := ⟨decodeOp_encodeOp_standard _ _, rfl, rfl⟩

end Sys2Proof.Laws
end

