-- ==== Sys2Proof/Laws/Run.lean ====
section
/-! SUPPORT. A run of `Sys2Proof.core` unrolled in terms of `step`, so that proofs about runs name State, not the
interface's projections. -/

namespace Sys2Proof.Machine

@[simp] theorem run_zero (s : State) : Sys2Proof.core.run 0 s = .next s := rfl

/-- One step of a run. -/
theorem run_succ_of_next {s t : State} (k : Nat) (h : step s = .next t) :
    Sys2Proof.core.run (k + 1) s = Sys2Proof.core.run k t := by
  have hs : Sys2Proof.core.step s = .next t := h
  simp only [Host.Core.run, hs]

/-- An idle engine stays as it is however long it runs (60_exceptions.md R98). -/
theorem run_of_idle {s : State} (h : s.mode = .idle) (k : Nat) : Sys2Proof.core.run k s = .next s := by
  induction k with
  | zero => rfl
  | succ k ih => exact (run_succ_of_next k (by simp [step, loopPass, h])).trans ih

end Sys2Proof.Machine
end

