-- ==== Sys2Proof/Tests/Slice0.lean ====
section
/-! SUPPORT. The model's own tests: expected values are those of the spec's 95_test_vectors.md, or of the encoding
tables of 30_encoding.md, and every statement with hypotheses has a witness that meets them. -/

namespace Sys2Proof.Tests

open Sys2Proof.Machine

/-! ### Helpers -/

/-- Write bytes at addresses. -/
def load (cells : List (Word × Byte)) (s : State) : State := cells.foldl (fun t p => memWrite p.1 p.2 t) s

/-- The reset state with these bytes and PC, inside a call with this count. -/
def calling (pc : Word) (cyc : Int) (cells : List (Word × Byte)) : State :=
  { load cells State.reset with PC := pc, mode := .running cyc }

/-- What is seen of a next state. -/
def seen {α : Type} (o : Host.Outcome State Fault Refusal) (f : State → α) : Option α :=
  match o with
  | .next t => some (f t)
  | .fault _ => none
  | .refused _ => none

/-- A, Z, N, PC and the mode. -/
def loadView (t : State) : Byte × Bool × Bool × Word × Mode := (t.A, t.P.Z, t.P.N, t.PC, t.mode)

/-- All flags set. -/
def allFlags : Flags := { C := true, Z := true, I := true, D := true, B := true, V := true, N := true }

/-! ### WellFormed: an ill-formed configuration for each check (00_scope.md R6) -/

theorem smoke_instrCodes_distinct :
    Params.instrCodesDistinct { Params.standard with instrCode := fun _ => 0xA0 } = false := by decide

theorem smoke_instrCodes_inField :
    Params.instrCodesInField { Params.standard with
      instrCode := fun i => match i with | .lda => 0xA1 | .jsr => 0x20 } = false := by decide

theorem smoke_modeCodes_distinct :
    Params.modeCodesDistinct { Params.standard with modeCode := fun _ => 0x05 } = false := by decide

theorem smoke_modeCodes_inField :
    Params.modeCodesInField { Params.standard with
      modeCode := fun m => if m = .imm then 0x29 else defaultModeCode m } = false := by decide

theorem smoke_wellFormed_refuses :
    Params.wellFormed { Params.standard with instrCode := fun _ => 0xA0 } = false := by decide

theorem smoke_standard_wellFormed : Params.standard.wellFormed = true := by decide

/-! ### Decoding: one word for every constructor, written from iii and mmmmm of R39 and R40, then the operand -/

theorem test_decode_ldaIndX : decode [0b101_00001, 0x20] = .ok (.ldaIndX 0x20, []) := rfl
theorem test_decode_ldaZp : decode [0b101_00101, 0x10] = .ok (.ldaZp 0x10, []) := rfl
theorem test_decode_ldaImm : decode [0b101_01001, 0x42] = .ok (.ldaImm 0x42, []) := rfl
theorem test_decode_ldaAbs : decode [0b101_01101, 0x34, 0x12] = .ok (.ldaAbs 0x1234, []) := rfl
theorem test_decode_ldaIndY : decode [0b101_10001, 0x40] = .ok (.ldaIndY 0x40, []) := rfl
theorem test_decode_ldaZpX : decode [0b101_10101, 0x80] = .ok (.ldaZpX 0x80, []) := rfl
theorem test_decode_ldaAbsY : decode [0b101_11001, 0xFF, 0x20] = .ok (.ldaAbsY 0x20FF, []) := rfl
theorem test_decode_ldaAbsX : decode [0b101_11101, 0xF0, 0x12] = .ok (.ldaAbsX 0x12F0, []) := rfl
theorem test_decode_jsrAbs : decode [0b001_01101, 0x00, 0x90] = .ok (.jsrAbs 0x9000, []) := rfl
theorem test_decode_jsrIndX : decode [0b001_00001, 0x07] = .ok (.jsrIndX, [0x07]) := rfl
theorem test_decode_jsrZp : decode [0b001_00101, 0x07] = .ok (.jsrZp, [0x07]) := rfl
theorem test_decode_jsrImm : decode [0b001_01001, 0x07] = .ok (.jsrImm, [0x07]) := rfl
theorem test_decode_jsrIndY : decode [0b001_10001, 0x07] = .ok (.jsrIndY, [0x07]) := rfl
theorem test_decode_jsrZpX : decode [0b001_10101, 0x07] = .ok (.jsrZpX, [0x07]) := rfl
theorem test_decode_jsrAbsY : decode [0b001_11001, 0x07] = .ok (.jsrAbsY, [0x07]) := rfl
theorem test_decode_jsrAbsX : decode [0b001_11101, 0x07] = .ok (.jsrAbsX, [0x07]) := rfl

/-- W10 and section 2.1 of 95_test_vectors.md: halves without a match. -/
theorem test_decodeOp_undefined_halves :
    decodeOp Params.standard 0x00 = (none, none) ∧ decodeOp Params.standard 0xA0 = (some .lda, none) ∧
    decodeOp Params.standard 0x49 = (none, some .imm) ∧ decodeOp Params.standard 0x20 = (some .jsr, none) ∧
    decodeOp Params.standard 0xFF = (none, none) ∧ decodeOp Params.standard 0xBE = (some .lda, none) ∧
    decodeOp Params.standard 0x6D = (none, some .abs) := by decide

/-- W9 of 95_test_vectors.md: the sixteen opcode bytes, in AddrMode.all's order. -/
theorem test_encodeOp_all :
    AddrMode.all.map (encodeOp Params.standard .lda) = [0xA1, 0xA5, 0xA9, 0xAD, 0xB1, 0xB5, 0xB9, 0xBD] ∧
    AddrMode.all.map (encodeOp Params.standard .jsr) = [0x21, 0x25, 0x29, 0x2D, 0x31, 0x35, 0x39, 0x3D] := by decide

theorem test_decode_missing_operand :
    decode [0xAD, 0x34] = .error (.missingOperand 0xAD) ∧ decode [] = .error .noOpcode := ⟨rfl, rfl⟩

theorem test_decodeTableWord :
    decodeTableWord 8 0xA9 = some (.ldaImm 0x00) ∧ decodeTableWord 8 0x90002D = some (.jsrAbs 0x0000) ∧
    decodeTableWord 24 0x90002D = some (.jsrAbs 0x9000) ∧ decodeTableWord 8 0x3D = some .jsrAbsX ∧
    decodeTableWord 8 0x00 = none := by decide

/-- The very next step after withFetchWord runs the instruction, from reset and in a call. -/
theorem test_withFetchWord_runs :
    seen (step (State.reset.withFetchWord 16 0x80A9)) loadView = some (0x80, false, true, 0xFFFE, .running (-1)) ∧
    seen (step ((calling 0x9000 9 []).withFetchWord 16 0x80A9)) loadView =
      some (0x80, false, true, 0x9002, .running 7) := by decide

/-! ### One step each: 95_test_vectors.md sections 1 and 2 -/

/-- L5: Z set, N cleared, the other flags kept. -/
theorem test_ldaImm_L5 :
    seen (step { calling 0x9000 2 [(0x9000, 0xA9), (0x9001, 0x00)] with P := { allFlags with Z := false } })
      (fun t => (t.A, t.P)) = some (0x00, { allFlags with N := false }) := by decide

/-- L7: the operand after an opcode at 0xFFFF is at 0x0000. -/
theorem test_ldaImm_L7 :
    seen (step (calling 0xFFFF 2 [(0xFFFF, 0xA9), (0x0000, 0x42)])) loadView =
      some (0x42, false, false, 0x0001, .running 0) := by decide

/-- W2. -/
theorem test_ldaZp_W2 :
    seen (step (calling 0xFFFC 3 [(0xFFFC, 0xA5), (0xFFFD, 0x10)])) loadView =
      some (0x00, true, false, 0xFFFE, .running 0) := by decide

/-- L9. -/
theorem test_ldaZp_L9 :
    seen (step (calling 0x9000 3 [(0x9000, 0xA5), (0x9001, 0x00), (0x0000, 0x80)])) loadView =
      some (0x80, false, true, 0x9002, .running 0) := by decide

/-- L11: the index sum stays in the page. -/
theorem test_ldaZpX_L11 :
    seen (step { calling 0x9000 4 [(0x9000, 0xB5), (0x9001, 0xFF), (0x0000, 0x22), (0x0100, 0x99)] with X := 0x01 })
      loadView = some (0x22, false, false, 0x9002, .running 0) := by decide

/-- L12. -/
theorem test_ldaZpX_L12 :
    seen (step { calling 0x9000 4 [(0x9000, 0xB5), (0x9001, 0x80), (0x007F, 0x33)] with X := 0xFF }) loadView =
      some (0x33, false, false, 0x9002, .running 0) := by decide

/-- L13: the high operand byte wraps to 0x0000. -/
theorem test_ldaAbs_L13 :
    seen (step (calling 0xFFFE 4 [(0xFFFE, 0xAD), (0xFFFF, 0x34), (0x0000, 0x12), (0x1234, 0x44)])) loadView =
      some (0x44, false, false, 0x0001, .running 0) := by decide

/-- L14. -/
theorem test_ldaAbs_L14 :
    seen (step (calling 0x9000 4 [(0x9000, 0xAD), (0x9001, 0x34), (0x9002, 0x12), (0x1234, 0x80)])) loadView =
      some (0x80, false, true, 0x9003, .running 0) := by decide

/-- L15: a crossing without a penalty. -/
theorem test_ldaAbsX_L15 :
    seen (step { calling 0x9000 4 [(0x9000, 0xBD), (0x9001, 0xF0), (0x9002, 0x12), (0x1310, 0x01)] with X := 0x20 })
      loadView = some (0x01, false, false, 0x9003, .running 0) := by decide

/-- L17: the address wraps to 0x0000. -/
theorem test_ldaAbsX_L17 :
    seen (step { calling 0x9000 4 [(0x9000, 0xBD), (0x9001, 0xFF), (0x9002, 0xFF), (0x0000, 0x66)] with X := 0x01 })
      loadView = some (0x66, false, false, 0x9003, .running 0) := by decide

/-- L18. -/
theorem test_ldaAbsY_L18 :
    seen (step { calling 0x9000 4 [(0x9000, 0xB9), (0x9001, 0xFF), (0x9002, 0x20), (0x2100, 0xFF)] with Y := 0x01 })
      loadView = some (0xFF, false, true, 0x9003, .running 0) := by decide

/-- L19. -/
theorem test_ldaAbsY_L19 :
    seen (step { calling 0x9000 4 [(0x9000, 0xB9), (0x9001, 0x00), (0x9002, 0x20)] with Y := 0x01 })
      loadView = some (0x00, true, false, 0x9003, .running 0) := by decide

/-- The bytes of L22. -/
def cellsL22 : List (Word × Byte) :=
  [(0x9000, 0xA1), (0x9001, 0xFB), (0x00FF, 0x00), (0x0000, 0x50), (0x0100, 0x60), (0x5000, 0x01), (0x6000, 0x02)]

/-- L21: the pointer's address wraps in the page. -/
theorem test_ldaIndX_L21 :
    seen (step { calling 0x9000 6 [(0x9000, 0xA1), (0x9001, 0xF0), (0x0010, 0x00), (0x0011, 0x50), (0x5000, 0xAB)]
      with X := 0x20 }) loadView = some (0xAB, false, true, 0x9002, .running 0) := by decide

/-- L22 and L23: where the pointer's high byte is read, under `page` and under `linear`. -/
theorem test_ldaIndX_L22_L23 :
    seen (step { calling 0x9000 6 cellsL22 with X := 0x04 }) loadView =
      some (0x01, false, false, 0x9002, .running 0) ∧
    loadView (iterate { Params.standard with zpPtrWrap := .linear } { calling 0x9000 6 cellsL22 with X := 0x04 }) =
      (0x02, false, false, 0x9002, .running 0) := by decide

/-- L24 and L25: without and with a crossing. -/
theorem test_ldaIndY_L24_L25 :
    seen (step { calling 0x9000 5 [(0x9000, 0xB1), (0x9001, 0x40), (0x0040, 0x00), (0x0041, 0x30), (0x3005, 0x77)]
      with Y := 0x05 }) loadView = some (0x77, false, false, 0x9002, .running 0) ∧
    seen (step { calling 0x9000 6 [(0x9000, 0xB1), (0x9001, 0x40), (0x0040, 0xF0), (0x0041, 0x30), (0x3100, 0x99)]
      with Y := 0x10 }) loadView = some (0x99, false, true, 0x9002, .running 0) := by decide

/-- L26: the wrap to 0x0000 counts as a crossing. -/
theorem test_ldaIndY_L26 :
    seen (step { calling 0x9000 6 [(0x9000, 0xB1), (0x9001, 0x40), (0x0040, 0xFF), (0x0041, 0xFF), (0x0000, 0x5C)]
      with Y := 0x01 }) loadView = some (0x5C, false, false, 0x9002, .running 0) := by decide

/-- J1: from reset. -/
theorem test_jsrAbs_J1 :
    seen (step (calling 0xFFFC 6 [(0xFFFC, 0x2D), (0xFFFD, 0x00), (0xFFFE, 0x90)]))
      (fun t => (t.PC, t.SP, memRead 0x00FE t, memRead 0x00FF t, t.mode)) =
    some (0x9000, 0x00FE, 0xFF, 0xFF, .running 0) := by decide

/-- J3: the push wraps from 0x0001. -/
theorem test_jsrAbs_J3 :
    seen (step { calling 0x9000 6 [(0x9000, 0x2D), (0x9001, 0x34), (0x9002, 0x12)] with SP := 0x0001 })
      (fun t => (t.PC, t.SP, memRead 0xFFFF t, memRead 0x0000 t, t.mode)) =
    some (0x1234, 0xFFFF, 0x03, 0x90, .running 0) := by decide

/-- What is seen of a call's end: PC, the mode and the report. -/
def endView (t : State) : Word × Mode × Option CallReturn := (t.PC, t.mode, t.returned)

/-- Section 2.5, JSR in the modes that its handler does not take. -/
theorem test_jsrModes_2_5 :
    ([(0x21, .indX), (0x25, .zp), (0x29, .imm), (0x31, .indY), (0x35, .zpX), (0x39, .absY), (0x3D, .absX)] :
      List (Byte × AddrMode)).all (fun p =>
        seen (step (calling 0x9000 10 [(0x9000, p.1)])) endView =
          some (0x9001, .idle, some ⟨.err (.unhandledAddressingMode p.2), 9⟩)) = true := by decide

/-- Section 2.5, the unknown bytes. -/
theorem test_unknown_2_5 :
    ([0x00, 0x20, 0xA0, 0xFF, 0x6D, 0x4D, 0xAE, 0xEA] : List Byte).all (fun b =>
        seen (step (calling 0x9000 10 [(0x9000, b)])) endView =
          some (0x9001, .idle, some ⟨.err (.unknownOpcode b), 9⟩)) = true := by decide

/-- R85: without a handler for LDA, the literal engine raises UnhandledInstruction. -/
theorem test_unhandledInstruction_R85 :
    endView (iterate { Params.standard with handled := [.jsr] } (calling 0x9000 10 [(0x9000, 0xA9)])) =
      (0x9001, .idle, some ⟨.err (.unhandledInstruction .lda), 9⟩) := by decide

/-- E1, E2: a spent budget fetches nothing, and an overrun completes. -/
theorem test_loop_E1_E2 :
    seen (step (calling 0xFFFC 0 [(0xFFFC, 0xA9), (0xFFFD, 0x42)])) endView = some (0xFFFC, .idle, some ⟨.ok, 0⟩) ∧
    seen (step (calling 0xFFFC 1 [(0xFFFC, 0xA9), (0xFFFD, 0x42)])) loadView =
      some (0x42, false, false, 0xFFFE, .running (-1)) := by decide

/-- E6: from reset with the largest budget. -/
theorem test_loop_E6 :
    seen (step (beginCall 0xFFFFFFFF State.reset)) endView =
      some (0xFFFD, .idle, some ⟨.err (.unknownOpcode 0x00), 4294967294⟩) := by decide

/-- W7: reset after mutation. -/
theorem test_reset_W7 :
    seen (hostAct .reset { load [(0x8000, 0xAA)] State.reset with
      A := 0x11, X := 0x22, Y := 0x33, P := allFlags, PC := 0x1234, SP := 0x0042 }) id = some State.reset := by decide

/-- R28: host addresses beyond 16 bits and below 0. -/
theorem test_hostAddr : hostAddr 65536 = 0x0000 ∧ hostAddr 65537 = 0x0001 ∧ hostAddr (-1) = 0xFFFF := by decide

/-- R18: one flag a bit. -/
theorem test_statusByte :
    Flags.statusByte { Flags.reset with N := true, C := true } = 0x81 ∧ allFlags.statusByte = 0xDF := by decide

/-- D20. -/
theorem test_error_codes :
    (EngineError.unknownOpcode 0x00).code = 0 ∧ (EngineError.unhandledInstruction .lda).code = 1 ∧
    (EngineError.unhandledAddressingMode .imm).code = 2 := by decide

/-- Equal memories are equal data: writing what an unlisted address reads as removes the entry. -/
theorem test_memory_canonical :
    (load [(0x0002, 0x05), (0x0001, 0x07), (0x0002, 0x00)] State.reset).mem = [(1, 0x07)] ∧
    Memory.wf [(1, 0x07), (1, 0x08)] = false ∧ Memory.wf [(1, 0x00)] = false ∧
    Memory.wf [(65536, 0x01)] = false ∧ Memory.wf [(1, 0x07), (65535, 0x08)] = true := by decide

/-! ### Witnesses: a state and operands that meet all of a statement's hypotheses, for each of its clauses -/

/-- `LDA #$80` at 0x9000 with one cycle left, the least count that fetches. -/
def atLda : State := calling 0x9000 1 [(0x9000, 0xA9), (0x9001, 0x80)]

/-- `JSR $1234` at 0x9000 with one cycle left and a stack that wraps. -/
def atJsr : State := { calling 0x9000 1 [(0x9000, 0x2D), (0x9001, 0x34), (0x9002, 0x12)] with SP := 0x0001 }

/-- (JSR, imm) at 0xFFFF with one cycle left. -/
def atJsrImm : State := calling 0xFFFF 1 [(0xFFFF, 0x29)]

/-- An unknown opcode at 0x9000 with one cycle left. -/
def atUnknown : State := calling 0x9000 1 [(0x9000, 0xA0)]

/-- A call whose budget is spent, at the least count a call can reach. -/
def atSpent : State := calling 0x9000 (-5) []

theorem atLda_fetches : atLda.fetches (.ldaImm 0x80) := ⟨[0x00], rfl⟩

theorem atJsr_fetches : atJsr.fetches (.jsrAbs 0x1234) := ⟨[], rfl⟩

theorem atJsrImm_fetches : atJsrImm.fetches .jsrImm := ⟨[0x00, 0x00], rfl⟩

theorem atUnknown_fetches_none : ∀ i, ¬ atUnknown.fetches i := not_fetches_iff.mpr ⟨_, rfl⟩

theorem witness_OpcodeDecodeLooksUpEachField :
    Params.standard.wellFormed = true ∧ memRead atUnknown.PC atUnknown = 0xA0 ∧
    ((decodeOp Params.standard 0xA0).1 = none ∨ (decodeOp Params.standard 0xA0).2 = none) := by decide

theorem witness_OpcodeCodecIsInverseBothWays :
    Params.standard.wellFormed = true ∧ decodeOp Params.standard 0x2D = (some .jsr, some .abs) := by decide

theorem witness_DecodedBytesAreTheEncoding : decode [0x2D, 0x00, 0x90, 0xFF] = .ok (.jsrAbs 0x9000, [0xFF]) := rfl

theorem witness_CanonicalMemoriesThatReadAlikeAreEqual :
    Memory.wf [(0, 0x01), (65535, 0xFF)] = true ∧
    ∀ a : Nat, a < 65536 → Memory.read [(0, 0x01), (65535, 0xFF)] a = Memory.read [(0, 0x01), (65535, 0xFF)] a :=
  ⟨by decide, fun _ _ => rfl⟩

theorem witness_PushStoresLowByteBelowHighByte :
    (0x0001 : Word) ≠ atJsr.SP - 2 ∧ (0x0001 : Word) ≠ atJsr.SP - 1 := by decide

theorem witness_idle_and_running :
    State.reset.mode = .idle ∧ atLda.mode = .running 1 ∧ FlagName.zero ≠ FlagName.negative := by decide

theorem witness_running_with_cycle : atLda.mode = .running 1 ∧ (0 : Int) < 1 := by decide

theorem witness_StepFetchesThenRunsTheDecodedInstruction :
    atLda.mode = .running 1 ∧ atLda.fetches (.ldaImm 0x80) ∧
    atUnknown.mode = .running 1 ∧ (∀ i, ¬ atUnknown.fetches i) :=
  ⟨rfl, atLda_fetches, rfl, atUnknown_fetches_none⟩

/-- Either half undefined: 0xA0 has no mode, 0x49 no instruction. -/
theorem witness_UnknownOpcodeEndsTheCall :
    atUnknown.mode = .running 1 ∧ (decodeOp Params.standard (memRead atUnknown.PC atUnknown)).2 = none ∧
    (decodeOp Params.standard (memRead 0x9000 (calling 0x9000 1 [(0x9000, 0x49)]))).1 = none := by decide

theorem witness_JsrInOtherModesRaisesAtDispatch : atJsrImm.mode = .running 1 := rfl

theorem witness_UnhandledModeIsRaisedExactlyByJsr :
    atJsrImm.mode = .running 1 ∧ AddrMode.imm ≠ .abs ∧
    memRead atJsrImm.PC atJsrImm = encodeOp Params.standard .jsr .imm ∧
    seen (step atJsrImm) endView = some (0x0000, .idle, some ⟨.err (.unhandledAddressingMode .imm), 0⟩) := by decide

theorem witness_ErrorChangesOnlyPcAndCount :
    ∃ t, atJsrImm.mode = .running 1 ∧ step atJsrImm = .next t ∧ t.mode = .idle := ⟨_, rfl, rfl, rfl⟩

/-- Both errors that the default configuration raises: an unknown opcode, and JSR in the immediate mode. -/
theorem witness_NewCallResumesPastTheErroringOpcode :
    (∃ t, atUnknown.mode = .running 1 ∧ step atUnknown = .next t ∧ t.mode = .idle) ∧
    (∃ t, atJsrImm.mode = .running 1 ∧ step atJsrImm = .next t ∧ t.mode = .idle) :=
  ⟨⟨_, rfl, rfl, rfl⟩, ⟨_, rfl, rfl, rfl⟩⟩

/-- Both ends of the range of a spent count. -/
theorem witness_SpentBudgetReturnsOk :
    atSpent.mode = .running (-5) ∧ (-5 : Int) ≤ 0 ∧ (calling 0x9000 0 []).mode = .running 0 ∧ (0 : Int) ≤ 0 := by
  decide

theorem witness_IdleEngineKeepsItsState :
    ∃ t, State.reset.mode = .idle ∧ hostAct (.execute 1) State.reset = .next t ∧ t.mode ≠ .idle :=
  ⟨_, rfl, rfl, by decide⟩

/-- A call that ends with no cycle left, and one that ends with an error. -/
theorem witness_StepAlwaysAnswersNext :
    atSpent.mode = .running (-5) ∧ seen (step atSpent) endView = some (0x9000, .idle, some ⟨.ok, -5⟩) ∧
    atUnknown.mode = .running 1 ∧
    seen (step atUnknown) endView = some (0x9001, .idle, some ⟨.err (.unknownOpcode 0xA0), 0⟩) := by decide

/-- One decode for each check of an iteration, R85's with a configuration that does not handle LDA. -/
theorem witness_DispatchChecksInOrder :
    (decodeOp Params.standard (memRead atUnknown.PC atUnknown)).2 = none ∧
    decodeOp Params.standard (memRead atLda.PC atLda) = (some .lda, some .imm) ∧
    Operation.lda ∉ [Operation.jsr] ∧ Operation.lda ∈ Params.standard.handled ∧
    decodeOp Params.standard (memRead atJsrImm.PC atJsrImm) = (some .jsr, some .imm) ∧
    Operation.jsr ∈ Params.standard.handled ∧ AddrMode.imm ≠ .abs ∧
    decodeOp Params.standard (memRead atJsr.PC atJsr) = (some .jsr, some .abs) := by decide

theorem witness_UnhandledInstructionIsUnreachable :
    ∃ t, atUnknown.mode = .running 1 ∧ step atUnknown = .next t ∧ t.mode = .idle := ⟨_, rfl, rfl, rfl⟩

theorem witness_LdaWritesOnlyAccumulatorZeroNegative :
    (Instr.ldaImm 0x80).operation = .lda ∧ atLda.mode = .running 1 ∧ atLda.fetches (.ldaImm 0x80) :=
  ⟨rfl, rfl, atLda_fetches⟩

theorem witness_LdaImmediateLoadsItsOperand :
    atLda.mode = .running 1 ∧ memRead atLda.PC atLda = 0xA9 ∧ memRead (atLda.PC + 1) atLda = 0x80 := by decide

/-- A one-operand instruction at 0xFFFF with one cycle left, its operand at 0x0000. -/
def atTop (op zz : Byte) : State := calling 0xFFFF 1 [(0xFFFF, op), (0x0000, zz)]

theorem witness_oneByteOperand_forms :
    ([0xA5, 0xB5, 0xA1, 0xB1] : List Byte).all (fun op =>
      let s := atTop op 0xFF
      (s.mode == .running 1) && (memRead s.PC s == op) && (memRead (s.PC + 1) s == 0xFF)) = true := by decide

/-- A two-operand instruction at 0xFFFE with one cycle left, its high operand byte at 0x0000. -/
def atTop3 (op ll hh : Byte) : State := calling 0xFFFE 1 [(0xFFFE, op), (0xFFFF, ll), (0x0000, hh)]

theorem witness_twoByteOperand_forms :
    ([0xAD, 0xBD, 0xB9, 0x2D] : List Byte).all (fun op =>
      let s := atTop3 op 0x34 0x12
      (s.mode == .running 1) && (memRead s.PC s == op) && (memRead (s.PC + 1) s == 0x34) &&
        (memRead (s.PC + 2) s == 0x12)) = true := by decide

theorem witness_JsrFrame :
    ∃ t, exec (.jsrAbs 0x1234) atJsr = .next t ∧ pushLoAddr atJsr.SP = 0xFFFF ∧ pushHiAddr atJsr.SP = 0x0000 ∧
      (0x9000 : Word) ≠ 0xFFFF ∧ (0x9000 : Word) ≠ 0x0000 := ⟨_, rfl, by decide⟩

theorem witness_JsrReturnAddressIsPastTheThirdByte :
    atJsr.mode = .running 1 ∧ memRead atJsr.PC atJsr = encodeOp Params.standard .jsr .abs := by decide

theorem witness_FetchSeesPushedBytes : ∃ t, exec (.jsrAbs (atJsr.SP - 2)) atJsr = .next t := ⟨_, rfl⟩

/-- A step that changes A, and executions that read neither X nor Y. -/
theorem witness_DataRegistersHaveTheStatedWritersAndReaders :
    (∃ t, step atLda = .next t ∧ t.A ≠ atLda.A) ∧
    atLda.mode = .running 1 ∧ atLda.fetches (.ldaImm 0x80) ∧ (Instr.ldaImm 0x80).operation = .lda ∧
    (∃ t, step atUnknown = .next t) ∧ (∀ i, atUnknown.fetches i → i.operation ≠ .lda) ∧
    (∃ t, exec (.ldaImm 0x80) atLda = .next t) ∧
    ¬ ((Instr.ldaImm 0x80).operation = .lda ∧ ((Instr.ldaImm 0x80).mode = .zpX ∨
      (Instr.ldaImm 0x80).mode = .absX ∨ (Instr.ldaImm 0x80).mode = .indX)) ∧
    ¬ ((Instr.ldaImm 0x80).operation = .lda ∧ ((Instr.ldaImm 0x80).mode = .absY ∨
      (Instr.ldaImm 0x80).mode = .indY)) ∧
    State.reset.mode = .idle :=
  ⟨⟨_, rfl, by decide⟩, rfl, atLda_fetches, rfl, ⟨_, rfl⟩, fun i h => absurd h (atUnknown_fetches_none i), ⟨_, rfl⟩,
    by simp [Instr.mode], by simp [Instr.mode], rfl⟩

theorem witness_ProgramCounterAdvancesOrIsSetByJsr :
    State.reset.mode = .idle ∧ atSpent.mode = .running (-5) ∧
    (∀ i, ¬ atUnknown.fetches i) ∧
    atLda.fetches (.ldaImm 0x80) ∧ (∀ target, Instr.ldaImm 0x80 ≠ .jsrAbs target) ∧
    atJsr.fetches (.jsrAbs 0x1234) :=
  ⟨rfl, rfl, atUnknown_fetches_none, atLda_fetches, fun _ h => (nomatch h), atJsr_fetches⟩

theorem witness_StackPointerChangesOnlyByJsr :
    ∃ t, step atJsr = .next t ∧ t.SP = 0xFFFF := ⟨_, rfl, by decide⟩

/-- One step for each clause: idle, spent, no LDA, and an LDA that changes the flags. -/
theorem witness_FlagsHaveTheStatedWritersAndReaders :
    (∃ t, step State.reset = .next t) ∧ State.reset.mode = .idle ∧
    (∃ t, step atSpent = .next t) ∧ atSpent.mode = .running (-5) ∧
    (∃ t, step atUnknown = .next t) ∧ (∀ i, atUnknown.fetches i → i.operation ≠ .lda) ∧
    (∃ t, step atLda = .next t ∧ t.P ≠ atLda.P) ∧ atLda.mode = .running 1 ∧ atLda.fetches (.ldaImm 0x80) ∧
    (Instr.ldaImm 0x80).operation = .lda ∧ FlagName.zero ≠ FlagName.negative :=
  ⟨⟨_, rfl⟩, rfl, ⟨_, rfl⟩, rfl, ⟨_, rfl⟩, fun i h => absurd h (atUnknown_fetches_none i), ⟨_, rfl, by decide⟩, rfl,
    atLda_fetches, rfl, by decide⟩

theorem witness_ExecuteOneRunsOneInstruction :
    ∃ t, (load [(0xFFFC, 0xA9)] State.reset).mode = .idle ∧
      (load [(0xFFFC, 0xA9)] State.reset).fetches (.ldaImm 0x00) ∧
      exec (.ldaImm 0x00) (advance (beginCall 1 (load [(0xFFFC, 0xA9)] State.reset))) = .next t ∧
      t.mode = .running (-1) := ⟨_, rfl, ⟨[0x00], rfl⟩, rfl, rfl⟩

theorem witness_EngineNeverReadsTheReport : ∃ t, step atUnknown = .next t := ⟨_, rfl⟩

theorem witness_StepChargesTheCycleTable :
    atJsr.fetches (.jsrAbs 0x1234) ∧ (Instr.jsrAbs 0x1234).mode = .abs ∧
    atLda.fetches (.ldaImm 0x80) ∧ (Instr.ldaImm 0x80).operation = .lda ∧
    atJsrImm.fetches .jsrImm ∧ Instr.jsrImm.operation = .jsr ∧ Instr.jsrImm.mode ≠ .abs ∧
    (∀ i, ¬ atUnknown.fetches i) :=
  ⟨atJsr_fetches, rfl, atLda_fetches, rfl, atJsrImm_fetches, rfl, by decide, atUnknown_fetches_none⟩

/-- A state inside a call, with memory listed, meets the invariant. -/
theorem atLda_inv : atLda.Inv :=
  ⟨by decide, fun c h => (by cases h; decide), fun _ _ => rfl, fun _ h => (nomatch h)⟩

theorem witness_StepKeepsTheInvariant : ∃ t, atLda.Inv ∧ step atLda = .next t := ⟨_, atLda_inv, rfl⟩

theorem witness_HostActionKeepsTheInvariant :
    ∃ t, (load [(0x8000, 0xAA)] State.reset).Inv ∧
      hostAct (.writeMem 65535 0x01) (load [(0x8000, 0xAA)] State.reset) = .next t :=
  ⟨_, ⟨by decide, fun _ h => (nomatch h), fun _ h => (nomatch h), fun _ h => (nomatch h)⟩, rfl⟩

/-- A reachable state with a report after Ok, and a reachable state inside a call. -/
theorem witness_ReachableCountsAreBounded :
    (∃ s, Reachable s ∧ s.returned = some ⟨.ok, 0⟩) ∧ (∃ s, Reachable s ∧ s.cyc = some 4294967295) :=
  ⟨⟨_, .step (.host (a := .execute 0) .reset rfl) rfl, rfl⟩, ⟨_, .host (a := .execute 0xFFFFFFFF) .reset rfl, rfl⟩⟩

end Sys2Proof.Tests
end

section
/-! PROOFS. What each kind of step answers, that no step reads a flag, and which step writes which flag
(10_state.md R19, R20, R24). -/

namespace Sys2Proof.Machine

/-! ### The next state of each kind of step -/

theorem step_of_idle {s : State} (hm : s.mode = .idle) : step s = .next s := by
  simp [step, loopPass, hm]

theorem step_of_spent {s : State} {c : Int} (hm : s.mode = .running c) (hc : c ≤ 0) :
    step s = .next (endCall .ok s) := by
  simp [step, loopPass, hm, show ¬ 0 < c by omega]

theorem step_of_decode_error {s : State} {c : Int} {e : DecodeError} (hm : s.mode = .running c) (hc : 0 < c)
    (hd : decode (fetchWindow s) = .error e) :
    step s = .next (raise (.unknownOpcode (memRead s.PC s)) (advance s)) := by
  simp [step, loopPass, dispatchDecoded, fetchByte, hm, hc, hd]

theorem step_of_fetches {s : State} {c : Int} {i : Instr} (hm : s.mode = .running c) (hc : 0 < c)
    (hf : s.fetches i) : step s = exec i (advance s) := by
  obtain ⟨rest, hd⟩ := hf
  simp [step, loopPass, dispatchDecoded, fetchByte, handled_standard, hm, hc, hd]

theorem hostAct_of_idle {s : State} (a : HostAction) (hm : s.mode = .idle) : hostAct a s = .next (a.apply s) := by
  simp [hostAct, hm]

/-! ### No meaning and no step reads a flag -/

/-- A handler's guard does not read the flags: if its results agree up to the flags, so do its answers. -/
theorem duringCall_flags_unread {s t u v : State} (f : Flags) (h : duringCall s t = .next u)
    (hv : ∃ q, v = { t with P := q }) : ∃ q, duringCall { s with P := f } v = .next { u with P := q } := by
  obtain ⟨⟨c, hc⟩, rfl⟩ := duringCall_eq_next.mp h
  obtain ⟨q, rfl⟩ := hv
  exact ⟨q, duringCall_running (s := { s with P := f }) _ hc⟩

/-- `(zz),Y` is the one form that branches, on a page crossing, and neither its value nor its charge reads a flag. -/
theorem operandIndY_flags_unread (w : ZpPtrWrap) (zz : Byte) (f : Flags) (s : State) :
    operandIndY w zz { s with P := f } = ((operandIndY w zz s).1, { (operandIndY w zz s).2 with P := f }) := by
  rw [operandIndY_eq, operandIndY_eq]
  rfl

/-- From other flags an instruction's meaning answers the same state up to the flags. -/
theorem exec_flags_unread {i : Instr} {s t : State} (f : Flags) (h : exec i s = .next t) :
    ∃ q, exec i { s with P := f } = .next { t with P := q } := by
  cases i with
  | ldaIndY zz =>
    have hread := operandIndY_flags_unread Params.standard.zpPtrWrap zz f (advance s)
    exact duringCall_flags_unread f h ⟨_, (congrArg loadA hread :)⟩
  | ldaIndX _ | ldaZp _ | ldaImm _ | ldaAbs _ | ldaZpX _ | ldaAbsY _ | ldaAbsX _ =>
    exact duringCall_flags_unread f h ⟨_, rfl⟩
  | jsrAbs _ => exact duringCall_flags_unread f h ⟨_, rfl⟩
  | jsrIndX | jsrZp | jsrImm | jsrIndY | jsrZpX | jsrAbsY | jsrAbsX =>
    exact duringCall_flags_unread f h ⟨_, rfl⟩

/-- From other flags a step answers the same state up to the flags. -/
theorem step_flags_unread {s t : State} (f : Flags) (h : step s = .next t) :
    ∃ q, step { s with P := f } = .next { t with P := q } := by
  obtain ⟨hm, rfl⟩ | ⟨c, hm, hc, rfl⟩ | ⟨c, hm, hc, ⟨e, hd, rfl⟩ | ⟨i, hf, he⟩⟩ := step_cases h
  · exact ⟨f, step_of_idle hm⟩
  · exact ⟨f, step_of_spent (s := { s with P := f }) hm hc⟩
  · exact ⟨f, step_of_decode_error (s := { s with P := f }) hm hc hd⟩
  · rw [step_of_fetches (s := { s with P := f }) hm hc hf]
    exact exec_flags_unread f he

/-! ### Which step writes which flag -/

/-- A meaning other than LDA's keeps every flag. -/
theorem exec_P_of_not_lda {i : Instr} {s t : State} (h : exec i s = .next t) (hi : i.operation ≠ .lda) :
    t.P = s.P := by
  obtain ⟨c, -, ⟨hlda, -⟩ | ⟨target, -, rfl⟩ | ⟨-, -, rfl⟩⟩ := exec_cases h
  · exact absurd hlda hi
  · simp
  · simp

/-- LDA sets Z and N by the byte it leaves in A. -/
theorem exec_P_of_lda {i : Instr} {s t : State} (h : exec i s = .next t) (hi : i.operation = .lda) :
    t.P = s.P.setZN t.A := by
  obtain ⟨c, -, ⟨-, hload⟩ | ⟨target, rfl, -⟩ | ⟨hjsr, -, -⟩⟩ := exec_cases h
  · exact hload.P
  · cases hi
  · rw [hi] at hjsr
    cases hjsr

/-- A step that fetches no LDA keeps every flag. -/
theorem step_P_of_no_lda {s t : State} (h : step s = .next t) (hi : ∀ i, s.fetches i → i.operation ≠ .lda) :
    t.P = s.P := by
  obtain ⟨-, rfl⟩ | ⟨c, -, -, rfl⟩ | ⟨c, -, -, ⟨e, -, rfl⟩ | ⟨i, hf, he⟩⟩ := step_cases h
  · rfl
  · simp
  · simp
  · exact exec_P_of_not_lda (s := advance s) he (hi i hf)

/-! ### The reserved bit -/

theorem getLsbD_bitAt_of_ne {i j : Nat} (b : Bool) (h : i ≠ j) : (bitAt b i).getLsbD j = false := by
  cases b <;> simp [bitAt, BitVec.getLsbD_twoPow, h]

/-- Bit 5 of the status byte is 0 (10_state.md R20): no flag stands at it. -/
theorem statusByte_bit_5 (p : Flags) : p.statusByte.getLsbD 5 = false := by
  simp only [Flags.statusByte, BitVec.getLsbD_or]
  simp [getLsbD_bitAt_of_ne, -BitVec.getLsbD_eq_getElem]

/-- Settles O51: reset by computation, the writers by the inversion of `step` and `exec`, the readers by running the
same step from other flags, bit 5 and the host's writes by the laws of `Flags`. -/
theorem flagsHaveTheStatedWritersAndReaders : Obligations.FlagsHaveTheStatedWritersAndReaders := by
  refine ⟨rfl, fun s t h => ⟨fun hm => ?_, fun c hm hc => ?_, step_P_of_no_lda h, fun c i hm hc hf hi => ?_⟩,
    fun s t f h => ?_, statusByte_bit_5,
    fun s f b hm => ⟨hostAct_of_idle _ hm, get_set_same _ _ _, fun _ hg => get_set_other _ _ hg⟩⟩
  · cases h.symm.trans (step_of_idle hm)
    rfl
  · cases h.symm.trans (step_of_spent hm hc)
    rfl
  · exact exec_P_of_lda (s := advance s) ((step_of_fetches hm hc hf).symm.trans h) hi
  · obtain ⟨q, hq⟩ := step_flags_unread f h
    exact ⟨_, hq, rfl⟩

end Sys2Proof.Machine
end

section
/-! PROOFS. What the bus reads after reset and after a write (20_memory.md R27). -/

namespace Sys2Proof.Machine

/-- After reset no cell is listed, so every address reads 0x00. -/
@[simp] theorem memRead_reset (a : Word) : memRead a State.reset = 0x00 := rfl

/-- `read_write` at word addresses: two of them name the same byte exactly when they are equal. -/
theorem memRead_memWrite (a b : Word) (v : Byte) (s : State) :
    memRead b (memWrite a v s) = if b = a then v else memRead b s := by
  simp only [memRead, memWrite_mem, read_write, BitVec.toNat_inj]

/-- Settles O7: reset lists no cell, a read after a write is `read_write`, and `memWrite` updates only `mem`. -/
theorem busReadsTheLastByteWritten : Obligations.BusReadsTheLastByteWritten :=
  ⟨memRead_reset, memRead_memWrite, fun _ _ _ => rfl⟩

end Sys2Proof.Machine
end

section
/-! PROOFS. The two look-ups of the opcode decode under any codes that meet the constraints, and what the engine does
with a half that has no match (30_encoding.md R41, R42). -/

namespace Sys2Proof

/-- `lookupI` fails exactly on the bytes that are no Instruction's code, whatever the codes are. -/
theorem lookupI_eq_none (p : Params) (b : Byte) : lookupI p b = none ↔ ∀ i, p.instrCode i ≠ b := by
  simp [lookupI, List.find?_eq_none, mem_operation_all]

/-- `lookupM` fails exactly on the bytes that are no AddressingMode's code, whatever the codes are. -/
theorem lookupM_eq_none (p : Params) (b : Byte) : lookupM p b = none ↔ ∀ m, p.modeCode m ≠ b := by
  simp [lookupM, List.find?_eq_none, mem_addrMode_all]

end Sys2Proof

namespace Sys2Proof.Machine

/-- A half with no match ends the dispatch in UnknownOpcode of the byte (60_exceptions.md R84), whatever the other half
holds and before `HANDLED` is consulted. -/
theorem dispatchOpcode_of_no_match {p : Params} {op : Byte} (s : State)
    (h : (decodeOp p op).1 = none ∨ (decodeOp p op).2 = none) :
    dispatchOpcode p op s = raise (.unknownOpcode op) s := by
  unfold dispatchOpcode
  split
  case h_1 i m hd => simp [hd] at h
  case h_2 | h_3 | h_4 => rfl

/-- Settles O1: the look-ups' equations at the byte's two fields, and the dispatch of a half with no match after the
fetch, which is `advance`. -/
theorem opcodeDecodeLooksUpEachField : Obligations.OpcodeDecodeLooksUpEachField := by
  intro p hp op
  refine ⟨lookupI_eq_some hp _, lookupM_eq_some hp _, lookupI_eq_none p _, lookupM_eq_none p _, fun _ _ => rfl, ?_⟩
  rintro s rfl hnone
  exact dispatchOpcode_of_no_match (advance s) hnone

end Sys2Proof.Machine
end

section
/-! PROOFS. The literal resolver's immediate, zero-page, zero-page-X and absolute modes in a running engine
(41_addressing_modes.md R59 to R62). -/

namespace Sys2Proof.Machine

/-- The operand address of the absolute modes: the low byte first, then the high byte (41_addressing_modes.md R67). -/
theorem resolveAddr_eq (s : State) :
    resolveAddr s = (hiLo (memRead (s.PC + 1) s) (memRead s.PC s), advance (advance s)) := rfl

theorem resolveValue_imm {s : State} {c : Int} (p : Params) (h : s.mode = .running c) :
    resolveValue p .imm s = (memRead s.PC s, { s with PC := s.PC + 1, mode := .running (c - 1) }) := by
  simp only [resolveValue, fetchByte, advance_eq h]

theorem resolveValue_zp {s : State} {c : Int} (p : Params) (h : s.mode = .running c) :
    resolveValue p .zp s =
      (memRead (zext16 (memRead s.PC s)) s, { s with PC := s.PC + 1, mode := .running (c - 2) }) := by
  simp only [resolveValue, fetchByte, operandZp, readByte, memRead_advance, charge_advance_eq 1 h, Int.reduceAdd]

/-- The index is added to the zero-page address in 8 bits, so the sum wraps in the page. -/
theorem resolveValue_zpX {s : State} {c : Int} (p : Params) (h : s.mode = .running c) :
    resolveValue p .zpX s =
      (memRead (zext16 (memRead s.PC s + s.X)) s, { s with PC := s.PC + 1, mode := .running (c - 3) }) := by
  simp only [resolveValue, fetchByte, operandZpX_eq, advance_X, memRead_advance, charge_advance_eq 2 h, Int.reduceAdd]

theorem resolveValue_abs {s : State} {c : Int} (p : Params) (h : s.mode = .running c) :
    resolveValue p .abs s =
      (memRead (hiLo (memRead (s.PC + 1) s) (memRead s.PC s)) s,
        { s with PC := s.PC + 2, mode := .running (c - 3) }) := by
  simp only [resolveValue, resolveAddr_eq, operandAbs, readByte, memRead_advance, charge_advance_advance_eq 1 h,
    Int.reduceAdd]

/-- Settles O16: one lemma per mode, each the operand's fetches followed by the charge of the mode's own cycles. -/
theorem directModesResolve : Obligations.DirectModesResolve :=
  fun p _ _ h => ⟨resolveValue_imm p h, resolveValue_zp p h, resolveValue_zpX p h, resolveValue_abs p h⟩

end Sys2Proof.Machine
end

section
/-! PROOFS. LDA in every mode (42_load.md R70): a fetched LDA is `exec_LDA` of its mode, it completes inside a call, and
other flags before it change nothing but the flags it keeps. -/

namespace Sys2Proof.Machine

/-! ### From the fetched bytes to the handler -/

/-- The bytes after a fetched instruction's opcode are its operand bytes, as its two halves take them. -/
theorem fetches_operands {s : State} {i : Instr} (h : s.fetches i) :
    ∃ rest, decodeOperands (memRead s.PC s) i.operation i.mode
      [memRead (s.PC + 1) s, memRead (s.PC + 2) s] = .ok (i, rest) := by
  have hop := fetches_opcode h
  obtain ⟨rest, hd⟩ := h
  rw [fetchWindow, decode_cons, hop] at hd
  exact ⟨rest, hd⟩

/-- An LDA decoded from the bytes at PC runs as `exec_LDA` of its mode: the operand the decoder has read is the one the
resolver fetches. -/
theorem exec_of_decodeOperands_lda {op : Byte} {m : AddrMode} {i : Instr} {rest : List Byte} {s : State}
    (h : decodeOperands op .lda m [memRead s.PC s, memRead (s.PC + 1) s] = .ok (i, rest)) :
    exec i s = duringCall s (execLDA Params.standard m s) := by
  cases m with
  | imm | zp | zpX | indX | indY | abs | absX | absY =>
    cases h
    rfl

/-- A step that fetches an LDA is `exec_LDA` of its mode after the opcode fetch. -/
theorem step_of_fetches_lda {s : State} {c : Int} {i : Instr} (hm : s.mode = .running c) (hc : 0 < c)
    (hf : s.fetches i) (hi : i.operation = .lda) :
    step s = .next (execLDA Params.standard i.mode (advance s)) := by
  obtain ⟨rest, hd⟩ := fetches_operands hf
  have hPC : s.PC + 2 = (advance s).PC + 1 := (BitVec.add_assoc s.PC 1 1).symm
  rw [hi, hPC] at hd
  calc step s = exec i (advance s) := step_of_fetches hm hc hf
    _ = duringCall (advance s) (execLDA Params.standard i.mode (advance s)) := exec_of_decodeOperands_lda hd
    _ = .next (execLDA Params.standard i.mode (advance s)) := duringCall_running _ (congrArg (Mode.charge 1) hm)

/-! ### What an LDA leaves -/

/-- Inside a call every form of LDA completes. -/
theorem exec_lda_completes {i : Instr} {s : State} {c : Int} (hi : i.operation = .lda) (hm : s.mode = .running c) :
    ∃ t, exec i s = .next t := by
  cases i with
  | ldaIndX _ | ldaZp _ | ldaImm _ | ldaAbs _ | ldaIndY _ | ldaZpX _ | ldaAbsY _ | ldaAbsX _ =>
    exact ⟨_, duringCall_running _ hm⟩
  | jsrAbs _ | jsrIndX | jsrZp | jsrImm | jsrIndY | jsrZpX | jsrAbsY | jsrAbsX => cases hi

/-- The state after an LDA differs from the one before as `LoadedFrom` says. -/
theorem exec_lda_loadedFrom {i : Instr} {s t : State} (h : exec i s = .next t) (hi : i.operation = .lda) :
    ∃ c, LoadedFrom s t c := by
  obtain ⟨c, -, ⟨-, hload⟩ | ⟨_, rfl, -⟩ | ⟨hjsr, -, -⟩⟩ := exec_cases h
  · exact ⟨c, hload⟩
  · cases hi
  · rw [hi] at hjsr
    cases hjsr

/-- From other flags an LDA answers the same state, with Z and N set over those flags. -/
theorem exec_lda_of_flags {i : Instr} {s t : State} (f : Flags) (h : exec i s = .next t) (hi : i.operation = .lda) :
    exec i { s with P := f } = .next { t with P := f.setZN t.A } := by
  obtain ⟨q, hq⟩ := exec_flags_unread f h
  have hP : q = f.setZN t.A := exec_P_of_lda hq hi
  rw [hq, hP]

/-- D before an LDA is D after it and has no other effect. -/
theorem exec_lda_of_decimal {i : Instr} {s t : State} (d : Bool) (h : exec i s = .next t) (hi : i.operation = .lda) :
    exec i { s with P := { s.P with D := d } } = .next { t with P := { t.P with D := d } } := by
  rw [exec_lda_of_flags _ h hi, exec_P_of_lda h hi]
  rfl

/-- Settles O35: `exec_LDA` is `loadA` of the resolver by definition, a step is it by the decoder's operands, and the
frame is `LoadedFrom`. -/
theorem ldaWritesOnlyAccumulatorZeroNegative : Obligations.LdaWritesOnlyAccumulatorZeroNegative := by
  refine ⟨fun _ _ _ => rfl, fun i s c hi hm hc hf => step_of_fetches_lda hm hc hf hi, fun i s c hi hm => ?_⟩
  obtain ⟨t, ht⟩ := exec_lda_completes hi hm
  obtain ⟨_, hload⟩ := exec_lda_loadedFrom ht hi
  obtain ⟨n, -, -, hmode⟩ := hload.mode
  have hflag (get : Flags → Bool) : get t.P = get (s.P.setZN t.A) := congrArg get hload.P
  exact ⟨t, _, ht, hmode, hflag Flags.Z, hflag Flags.N, hflag Flags.C, hflag Flags.I, hflag Flags.D, hflag Flags.B,
    hflag Flags.V, hload.X, hload.Y, hload.SP, hload.returned,
    fun a => memRead_congr a hload.mem, fun d => exec_lda_of_decimal d ht hi⟩

end Sys2Proof.Machine
end

section
/-! PROOFS. What JSR pushes (43_control.md R80, R81; 20_memory.md R33): the push reads back as the word pushed, and a
fetched JSR absolute pushes PC as the resolver leaves it. -/

namespace Sys2Proof.Machine

/-! ### The pushed word reads back -/

theorem memRead_pushHiAddr_push16 (v : Word) (s : State) : memRead (s.SP - 1) (push16 v s) = hiByte v :=
  (memRead_memWrite (pushHiAddr s.SP) (s.SP - 1) (hiByte v) (memWrite (pushLoAddr s.SP) (loByte v) s)).trans
    (if_pos rfl)

/-- The high byte, stored second, does not fall on the low byte, at any SP. -/
theorem memRead_pushLoAddr_push16 (v : Word) (s : State) : memRead (s.SP - 2) (push16 v s) = loByte v := by
  have hne : s.SP - 2 ≠ s.SP - 1 := by bv_omega
  calc memRead (s.SP - 2) (push16 v s)
      = memRead (s.SP - 2) (memWrite (s.SP - 1) (hiByte v) (memWrite (s.SP - 2) (loByte v) s)) := rfl
    _ = loByte v := by rw [memRead_memWrite, if_neg hne, memRead_memWrite, if_pos rfl]

/-- After a JSR whose target has been resolved, the word on the stack is PC as it stood then. -/
theorem jumpToSubroutine_pushes_PC (target : Word) (s : State) :
    hiLo (memRead (s.SP - 1) (jumpToSubroutine target s)) (memRead (s.SP - 2) (jumpToSubroutine target s)) = s.PC := by
  have hmem : (jumpToSubroutine target s).mem = (push16 s.PC s).mem := jumpToSubroutine_mem target s
  rw [memRead_congr _ hmem, memRead_congr _ hmem, memRead_pushHiAddr_push16, memRead_pushLoAddr_push16,
    hiLo_hiByte_loByte]

/-! ### From the opcode at PC to the push -/

/-- The encoding of JSR absolute at PC is fetched with the target that the resolver gives after the opcode fetch. -/
theorem fetches_jsrAbs {s : State} (hop : memRead s.PC s = encodeOp Params.standard .jsr .abs) :
    s.fetches (.jsrAbs (resolveAddr (advance s)).1) := by
  have hPC : s.PC + 2 = (advance s).PC + 1 := (BitVec.add_assoc s.PC 1 1).symm
  refine ⟨[], ?_⟩
  rw [fetchWindow, decode_cons, hop, decodeOp_encodeOp_standard, hPC]
  rfl

/-- A step that fetches JSR absolute is `exec_JSR` after the opcode fetch. -/
theorem step_of_jsrAbs {s : State} {c : Int} (hm : s.mode = .running c) (hc : 0 < c)
    (hop : memRead s.PC s = encodeOp Params.standard .jsr .abs) : step s = .next (execJSR (advance s)) := by
  have hmode : (advance s).mode = .running (c - 1) := congrArg (Mode.charge 1) hm
  calc step s = exec (.jsrAbs (resolveAddr (advance s)).1) (advance s) := step_of_fetches hm hc (fetches_jsrAbs hop)
    _ = .next (execJSR (advance s)) := duringCall_running _ hmode

/-- Settles O46: the step is `exec_JSR`, whose push reads back as PC after the resolver, three bytes past the opcode's
address. -/
theorem jsrReturnAddressIsPastTheThirdByte : Obligations.JsrReturnAddressIsPastTheThirdByte := by
  intro s c hm hc hop
  refine ⟨execJSR (advance s), step_of_jsrAbs hm hc hop, ?_, ?_⟩
  · exact jumpToSubroutine_pushes_PC (resolveAddr (advance s)).1 (resolveAddr (advance s)).2
  · calc (resolveAddr (advance s)).2.PC = s.PC + 1 + 1 + 1 := rfl
      _ = s.PC + 3 := by simp only [BitVec.add_assoc]; rfl

end Sys2Proof.Machine
end


section
/-! PROOFS. How a call ends in an error, and what an idle engine does (60_exceptions.md R84, R89, R98). -/

namespace Sys2Proof.Machine

/-! ### The state that an error leaves -/

/-- An error raised right after the opcode fetch leaves PC past the opcode, the engine idle and the report with one
cycle charged. -/
theorem raise_advance_eq {s : State} {c : Int} (e : EngineError) (hm : s.mode = .running c) :
    raise e (advance s) =
      { s with PC := s.PC + 1, mode := .idle, returned := some { result := .err e, cyc := c - 1 } } := by
  rw [advance_eq hm, raise_eq e rfl]

/-- The only meanings that end the call are the JSR rows whose mode has no handler: an LDA and a JSR absolute leave the
engine running. -/
theorem exec_to_idle {i : Instr} {s t : State} (h : exec i s = .next t) (hidle : t.mode = .idle) :
    t = raise (.unhandledAddressingMode i.mode) s := by
  obtain ⟨c, hm, ⟨-, hload⟩ | ⟨target, -, rfl⟩ | ⟨-, -, hraise⟩⟩ := exec_cases h
  · obtain ⟨n, -, -, hmode⟩ := hload.mode
    cases hidle.symm.trans hmode
  · simp [hm] at hidle
  · exact hraise

/-- Settles O22: of the cases of `step`, an idle and a spent engine have no cycle left, and the other two end the call
by raising an error after the opcode fetch. -/
theorem errorChangesOnlyPcAndCount : Obligations.ErrorChangesOnlyPcAndCount := by
  intro s t c hm hc hstep hidle
  obtain ⟨hm', -⟩ | ⟨c', hm', hc', -⟩ | ⟨-, -, -, ⟨-, -, rfl⟩ | ⟨i, -, hexec⟩⟩ := step_cases hstep
  · cases hm.symm.trans hm'
  · cases hm.symm.trans hm'
    omega
  · exact ⟨_, raise_advance_eq _ hm⟩
  · exact ⟨_, (exec_to_idle hexec hidle).trans (raise_advance_eq _ hm)⟩

/-! ### The opcode byte with no decode -/

/-- No instruction is fetched where a half of the opcode's decode has no match. -/
theorem not_fetches_of_no_match {s : State}
    (hnone : (decodeOp Params.standard (memRead s.PC s)).1 = none ∨
      (decodeOp Params.standard (memRead s.PC s)).2 = none) : ∀ i, ¬ s.fetches i := by
  intro i hf
  simp [fetches_opcode hf] at hnone

/-- Settles O19: no instruction is fetched, so the decoder answers an error and the step raises UnknownOpcode. -/
theorem unknownOpcodeEndsTheCall : Obligations.UnknownOpcodeEndsTheCall := by
  intro s c hm hc op hnone
  obtain ⟨e, hd⟩ := not_fetches_iff.mp (not_fetches_of_no_match hnone)
  rw [step_of_decode_error hm hc hd, raise_advance_eq _ hm]

/-! ### The idle engine -/

/-- Of the host's actions on an idle engine, only `execute` does not leave it idle: the writes keep the mode and reset
sets it to idle. -/
theorem eq_execute_of_apply_not_idle {a : HostAction} {s : State} (hm : s.mode = .idle)
    (hwake : (a.apply s).mode ≠ .idle) : ∃ budget, a = .execute budget := by
  cases a with
  | execute budget => exact ⟨budget, rfl⟩
  | reset => exact absurd rfl hwake
  | writeMem _ _ | setA _ | setX _ | setY _ | setPC _ | setSP _ | setFlag _ _ => exact absurd hm hwake

/-- Settles O25: an idle step is the identity, and a host action on an idle engine is its `apply`. -/
theorem idleEngineKeepsItsState : Obligations.IdleEngineKeepsItsState := by
  refine fun s hm => ⟨step_of_idle hm, fun a t hact hwake => ?_⟩
  cases (hostAct_of_idle a hm).symm.trans hact
  exact eq_execute_of_apply_not_idle hm hwake

end Sys2Proof.Machine
end


section
/-! PROOFS. The state after construction and reset (70_reset_and_hazards.md R99). -/

namespace Sys2Proof.Machine

/-- Every flag is 0 at reset (10_state.md R19). -/
@[simp] theorem get_reset (f : FlagName) : Flags.reset.get f = false := by
  cases f <;> rfl

/-- With all flags 0 and the reserved bit constantly 0, the whole status byte is 0 (10_state.md R20). -/
@[simp] theorem statusByte_reset : Flags.reset.statusByte = 0x00 := by decide

/-- Settles O10: registers, mode and count stand in `State.reset`; the flags are `get_reset` and `statusByte_reset`,
and the memory is `memRead_reset`. -/
theorem resetStateIsAsSpecified : Obligations.ResetStateIsAsSpecified :=
  ⟨rfl, rfl, rfl, rfl, rfl, get_reset, statusByte_reset, memRead_reset, rfl, rfl⟩

end Sys2Proof.Machine
end

section
/-! PROOFS. The codec of opcode bytes under any lawful codes, and the decoder as the inverse of the encoder under the
default ones (30_encoding.md R43 to R46). -/

namespace Sys2Proof

/-! ### The two fields of an opcode byte -/

/-- Two bytes that each lie in their own field are read back from their OR by the field's mask. -/
theorem or_and_mask {a b mask rest : Byte} (hcover : mask ||| rest = BitVec.allOnes 8) (ha : a &&& rest = 0)
    (hb : b &&& mask = 0) : (a ||| b) &&& mask = a := by
  calc (a ||| b) &&& mask = a &&& mask ||| b &&& mask := BitVec.and_or_distrib_right
    _ = a &&& mask ||| a &&& rest := by rw [hb, ha]
    _ = a &&& (mask ||| rest) := BitVec.and_or_distrib_left.symm
    _ = a := by rw [hcover, BitVec.and_allOnes]

/-- The two fields of 30_encoding.md R38 make up the byte. -/
theorem or_of_fields (op : Byte) : (op &&& 0xE0) ||| (op &&& 0x1F) = op := by
  rw [← BitVec.and_or_distrib_left]
  exact BitVec.and_allOnes

theorem decodeOp_encodeOp {p : Params} (h : p.wellFormed = true) (i : Operation) (m : AddrMode) :
    decodeOp p (encodeOp p i m) = (some i, some m) := by
  obtain ⟨-, hi, -, hm⟩ := wellFormed_facts h
  have hI : encodeOp p i m &&& 0xE0 = p.instrCode i := or_and_mask rfl (hi i) (hm m)
  have hM : encodeOp p i m &&& 0x1F = p.modeCode m := by
    rw [encodeOp, BitVec.or_comm]
    exact or_and_mask rfl (hm m) (hi i)
  rw [decodeOp, hI, hM, (lookupI_eq_some h _ i).mpr rfl, (lookupM_eq_some h _ m).mpr rfl]

theorem encodeOp_of_decodeOp {p : Params} (h : p.wellFormed = true) {op : Byte} {i : Operation} {m : AddrMode}
    (hd : decodeOp p op = (some i, some m)) : encodeOp p i m = op := by
  obtain ⟨hI, hM⟩ := Prod.mk.inj hd
  rw [encodeOp, (lookupI_eq_some h _ i).mp hI, (lookupM_eq_some h _ m).mp hM, or_of_fields]

/-- Settles O2: a lawful code lies in its own field, so the look-ups find both halves, and the halves make up the
byte. -/
theorem opcodeCodecIsInverseBothWays : Obligations.OpcodeCodecIsInverseBothWays :=
  fun _ h => ⟨decodeOp_encodeOp h, fun _ _ _ => encodeOp_of_decodeOp h⟩

/-! ### Operands: what the decoder takes is what the encoder lays out -/

theorem withWord_wordOperand (op : Byte) (f : Word → Instr) (w : Word) (rest : List Byte) :
    withWord op f (wordOperand w ++ rest) = .ok (f w, rest) := by
  simp [wordOperand, withWord]

theorem withByte_eq_ok {op : Byte} {f : Byte → Instr} {bs rest : List Byte} {i : Instr}
    (h : withByte op f bs = .ok (i, rest)) : ∃ b, i = f b ∧ bs = b :: rest := by
  cases bs with
  | nil => cases h
  | cons b bs =>
    cases h
    exact ⟨b, rfl, rfl⟩

theorem withWord_eq_ok {op : Byte} {f : Word → Instr} {bs rest : List Byte} {i : Instr}
    (h : withWord op f bs = .ok (i, rest)) : ∃ w, i = f w ∧ bs = wordOperand w ++ rest := by
  match bs with
  | [] | [_] => cases h
  | ll :: hh :: bs =>
    cases h
    exact ⟨hiLo hh ll, rfl, by simp [wordOperand]⟩

theorem decodeOperands_operandBytes (op : Byte) (i : Instr) (rest : List Byte) :
    decodeOperands op i.operation i.mode (i.operandBytes ++ rest) = .ok (i, rest) := by
  cases i with
  | ldaIndX _ | ldaZp _ | ldaImm _ | ldaIndY _ | ldaZpX _ => rfl
  | ldaAbs _ | ldaAbsY _ | ldaAbsX _ | jsrAbs _ => exact withWord_wordOperand op _ _ rest
  | jsrIndX | jsrZp | jsrImm | jsrIndY | jsrZpX | jsrAbsY | jsrAbsX => rfl

/-- The bytes that an operation in a mode takes are the operand bytes of the instruction it decodes to. -/
theorem operandBytes_of_decodeOperands {op : Byte} {o : Operation} {m : AddrMode} {bs rest : List Byte} {i : Instr}
    (h : decodeOperands op o m bs = .ok (i, rest)) : bs = i.operandBytes ++ rest := by
  cases o with
  | lda =>
    cases m with
    | indX | zp | imm | indY | zpX =>
      obtain ⟨b, rfl, rfl⟩ := withByte_eq_ok h
      rfl
    | abs | absY | absX =>
      obtain ⟨w, rfl, rfl⟩ := withWord_eq_ok h
      rfl
  | jsr =>
    cases m with
    | abs =>
      obtain ⟨w, rfl, rfl⟩ := withWord_eq_ok h
      rfl
    | indX | zp | imm | indY | zpX | absY | absX =>
      cases h
      rfl

/-! ### The decoder -/

/-- An opcode byte whose two halves decode is followed by their operand bytes. -/
theorem decode_cons_of_decodeOp {op : Byte} {o : Operation} {m : AddrMode} (rest : List Byte)
    (h : decodeOp Params.standard op = (some o, some m)) : decode (op :: rest) = decodeOperands op o m rest := by
  rw [decode_cons, h]

/-- Settles O3: the opcode byte decodes to the instruction's two halves, and these take its operand bytes. -/
theorem instructionDecodesFromItsEncoding : Obligations.InstructionDecodesFromItsEncoding := by
  intro i rest
  calc decode (encode i ++ rest)
      = decodeOperands _ i.operation i.mode (i.operandBytes ++ rest) :=
        decode_cons_of_decodeOp _ (decodeOp_encodeOp_standard _ _)
    _ = .ok (i, rest) := decodeOperands_operandBytes _ i rest

/-- Settles O4: the opcode byte is the encoding of the two halves it decodes to, and the bytes after it are the
operand bytes and those left over. -/
theorem decodedBytesAreTheEncoding : Obligations.DecodedBytesAreTheEncoding := by
  intro bs i rest h
  cases bs with
  | nil => cases h
  | cons op bs =>
    have hop := decode_opcode op bs rest i h
    rw [decode_cons_of_decodeOp bs hop] at h
    rw [encode, encodeOp_of_decodeOp standard_wellFormed hop, operandBytes_of_decodeOperands h]
    rfl

/-- Settles O5: an opcode byte either encodes one of the sixteen pairs, and then decodes by computation, or a half of
it has no match, and then it is none of the sixteen bytes and decodes to no instruction. -/
theorem opcodeMapHasThreeClasses : Obligations.OpcodeMapHasThreeClasses := by
  intro op b1 b2
  cases hd : decode [op, b1, b2] with
  | ok r =>
    have hop := decode_opcode op [b1, b2] r.2 r.1 hd
    rw [← hd]
    generalize r.1.operation = o, r.1.mode = m at hop
    obtain rfl := encodeOp_of_decodeOp standard_wellFormed hop
    cases o <;> cases m <;> rfl
  | error e =>
    obtain ⟨rfl, hnone⟩ := decode_three op b1 b2 e hd
    iterate 16 rw [if_neg]
    all_goals
      rintro rfl
      exact absurd hnone (by decide)

/-- Settles O6, by computing the decoder. -/
theorem writtenOutWordsDecode : Obligations.WrittenOutWordsDecode := ⟨rfl, rfl, rfl, rfl, rfl, rfl, rfl⟩

end Sys2Proof
end

section
/-! PROOFS. Memory in canonical form as the spec's array, the push, and the host's actions (20_memory.md R26 to R33,
10_state.md R24, R25). -/

namespace Sys2Proof.Machine

/-! ### Canonical memories -/

theorem read_head (k : Nat) (v : Byte) (m : Memory) : Memory.read ((k, v) :: m) k = v := if_pos rfl

theorem read_tail {k a : Nat} (v : Byte) (m : Memory) (h : k ≠ a) : Memory.read ((k, v) :: m) a = m.read a := if_neg h

theorem risingFrom_cons {lo k : Nat} {v : Byte} {m : Memory} :
    Memory.risingFrom lo ((k, v) :: m) = true ↔ lo ≤ k ∧ Memory.risingFrom (k + 1) m = true := by
  simp [Memory.risingFrom]

theorem all_cellOk_cons {k : Nat} {v : Byte} {m : Memory} :
    List.all ((k, v) :: m) cellOk = true ↔ (k < 65536 ∧ v ≠ Memory.unlisted) ∧ m.all cellOk = true := by
  simp [cellOk]

/-- A rising list holds nothing below its bound. -/
theorem read_of_lt {lo a : Nat} (ha : a < lo) :
    ∀ m : Memory, Memory.risingFrom lo m = true → m.read a = Memory.unlisted
  | [], _ => rfl
  | (k, v) :: rest, hm => by
    obtain ⟨hk, hrest⟩ := risingFrom_cons.mp hm
    exact (read_tail v rest (by omega)).trans (read_of_lt (by omega) rest hrest)

/-- Where a rising list reads as a byte that is listed, its bound has been reached. -/
theorem le_of_read_eq {lo k : Nat} {v : Byte} {m : Memory} (hm : Memory.risingFrom lo m = true)
    (hread : m.read k = v) (hv : v ≠ Memory.unlisted) : lo ≤ k := by
  by_contra hk
  exact hv (hread.symm.trans (read_of_lt (by omega) m hm))

/-- Rising lists of canonical cells are determined by what they read as: each list's first cell must be read from the
other, so both are at one address and hold one byte, and at or below it both tails read as unlisted. -/
theorem eq_of_read_eq : ∀ (m n : Memory) (lo lo' : Nat),
    Memory.risingFrom lo m = true → Memory.risingFrom lo' n = true → m.all cellOk = true → n.all cellOk = true →
    (∀ a, a < 65536 → m.read a = n.read a) → m = n
  | [], [], _, _, _, _, _, _, _ => rfl
  | [], (k, v) :: n, _, _, _, _, _, hcn, hread => by
    obtain ⟨⟨hk, hv⟩, -⟩ := all_cellOk_cons.mp hcn
    exact absurd ((read_head k v n).symm.trans (hread k hk).symm) hv
  | (k, v) :: m, [], _, _, _, _, hcm, _, hread => by
    obtain ⟨⟨hk, hv⟩, -⟩ := all_cellOk_cons.mp hcm
    exact absurd ((read_head k v m).symm.trans (hread k hk)) hv
  | (k, v) :: m, (j, w) :: n, _, _, hm, hn, hcm, hcn, hread => by
    obtain ⟨-, hrm⟩ := risingFrom_cons.mp hm
    obtain ⟨-, hrn⟩ := risingFrom_cons.mp hn
    obtain ⟨⟨hk, hv⟩, htm⟩ := all_cellOk_cons.mp hcm
    obtain ⟨⟨hj, hw⟩, htn⟩ := all_cellOk_cons.mp hcn
    have hkn : Memory.read ((j, w) :: n) k = v := (hread k hk).symm.trans (read_head k v m)
    have hjm : Memory.read ((k, v) :: m) j = w := (hread j hj).trans (read_head j w n)
    obtain rfl : k = j := Nat.le_antisymm (le_of_read_eq (risingFrom_cons.mpr ⟨le_rfl, hrm⟩) hjm hw)
      (le_of_read_eq (risingFrom_cons.mpr ⟨le_rfl, hrn⟩) hkn hv)
    have hvw : w = v := (read_head k w n).symm.trans hkn
    have htail : m = n := eq_of_read_eq m n (k + 1) (k + 1) hrm hrn htm htn fun a ha => by
      by_cases hak : a ≤ k
      · rw [read_of_lt (by omega) m hrm, read_of_lt (by omega) n hrn]
      · have hne : k ≠ a := by omega
        exact (read_tail v m hne).symm.trans ((hread a ha).trans (read_tail w n hne))
    rw [hvw, htail]

/-- Settles O8: a canonical list is a rising list of canonical cells. -/
theorem canonicalMemoriesThatReadAlikeAreEqual : Obligations.CanonicalMemoriesThatReadAlikeAreEqual := by
  intro m n hm hn hread
  obtain ⟨hrm, hcm⟩ := (wf_iff m).mp hm
  obtain ⟨hrn, hcn⟩ := (wf_iff n).mp hn
  exact eq_of_read_eq m n 0 0 hrm hrn hcm hcn hread

/-! ### The push -/

/-- A push leaves every byte outside its two addresses. -/
theorem memRead_push16_of_ne {a : Word} {s : State} (v : Word) (hlo : a ≠ s.SP - 2) (hhi : a ≠ s.SP - 1) :
    memRead a (push16 v s) = memRead a s := by
  calc memRead a (push16 v s)
      = memRead a (memWrite (s.SP - 1) (hiByte v) (memWrite (s.SP - 2) (loByte v) s)) := rfl
    _ = memRead a s := by rw [memRead_memWrite, if_neg hhi, memRead_memWrite, if_neg hlo]

/-- Settles O9: the two bytes read back, every other address is none of the two written. -/
theorem pushStoresLowByteBelowHighByte : Obligations.PushStoresLowByteBelowHighByte :=
  fun v s => ⟨memRead_pushLoAddr_push16 v s, memRead_pushHiAddr_push16 v s,
    fun _ hlo hhi => memRead_push16_of_ne v hlo hhi, rfl⟩

/-! ### The host -/

theorem hostAct_of_running {s : State} {c : Int} (a : HostAction) (hm : s.mode = .running c) :
    hostAct a s = .refused .hostActsOnlyWhileIdle := by
  simp [hostAct, hm]

/-- Settles O11: an action on an idle engine is its `apply`, which for reset reads no state; a running engine refuses
it. -/
theorem resetActionRestoresConstructionState : Obligations.ResetActionRestoresConstructionState :=
  fun _ => ⟨fun hm => hostAct_of_idle _ hm, fun _ hm => hostAct_of_running _ hm⟩

/-- Settles O12: an action on an idle engine is its `apply`; a flag and a memory byte are then what the laws of
`Flags.set` and `memWrite` say. -/
theorem hostWritesChangeOnlyWhatTheyName : Obligations.HostWritesChangeOnlyWhatTheyName := by
  refine fun s => ⟨fun c hm a => hostAct_of_running a hm, fun hm => ⟨fun _ => hostAct_of_idle _ hm,
    fun _ => hostAct_of_idle _ hm, fun _ => hostAct_of_idle _ hm, fun _ => hostAct_of_idle _ hm,
    fun _ => hostAct_of_idle _ hm, fun f b => ?_, fun n v => ?_, fun _ => hostAct_of_idle _ hm⟩⟩
  · exact ⟨s.P.set f b, hostAct_of_idle _ hm, get_set_same _ _ _, fun _ hg => get_set_other _ _ hg⟩
  · exact ⟨(memWrite (hostAddr n) v s).mem, hostAct_of_idle _ hm, fun a => memRead_memWrite (hostAddr n) a v s⟩

theorem hostAddr_toNat (n : Int) : ((hostAddr n).toNat : Int) = n % 65536 := by
  rw [hostAddr, BitVec.toNat_ofInt]
  exact Int.toNat_of_nonneg (Int.emod_nonneg _ (by decide))

/-- Addresses that agree modulo 65536 select the same byte (20_memory.md R28). -/
theorem hostAddr_emod (n : Int) : hostAddr (n % 65536) = hostAddr n := by
  apply BitVec.eq_of_toNat_eq
  have h := (hostAddr_toNat (n % 65536)).trans ((Int.emod_emod_of_dvd n dvd_rfl).trans (hostAddr_toNat n).symm)
  exact_mod_cast h

/-- Settles O13: the host's read and write use their address through `hostAddr` alone. -/
theorem hostAddressesTruncate : Obligations.HostAddressesTruncate := by
  refine fun n => ⟨hostAddr_toNat n, fun s v hm => ⟨?_, ?_⟩⟩
  · rw [hostReadMem, hostReadMem, hostAddr_emod]
  · rw [hostAct_of_idle _ hm, hostAct_of_idle _ hm, HostAction.apply, HostAction.apply, hostAddr_emod]

/-- Settles O15, by the mode on which inspection and the host's read branch. -/
theorem inspectionShowsTheRegisters : Obligations.InspectionShowsTheRegisters := by
  refine fun s => ⟨fun hm => ?_, fun c hm => ?_⟩
  · exact ⟨_, by rw [inspect, hm], rfl, rfl, rfl, rfl, rfl, rfl, rfl, fun n => by rw [hostReadMem, hm]⟩
  · exact ⟨by rw [inspect, hm], fun n => by rw [hostReadMem, hm]⟩

/-! ### The status byte -/

theorem getLsbD_bitAt_same {i : Nat} (b : Bool) (h : i < 8) : (bitAt b i).getLsbD i = b := by
  cases b <;> simp [bitAt, h]

/-- Settles O14: the byte is an OR of single bits, and at each position at most one of them stands. -/
theorem statusByteLayout : Obligations.StatusByteLayout := by
  intro p
  refine ⟨?_, ?_, statusByte_bit_5 p, ?_, ?_, ?_, ?_, ?_⟩ <;>
    simp [Flags.statusByte, getLsbD_bitAt_of_ne, getLsbD_bitAt_same, -BitVec.getLsbD_eq_getElem]

end Sys2Proof.Machine
end

section
/-! PROOFS. The literal resolver's indexed and indirect modes (41_addressing_modes.md R63 to R66), and the next state
of each instruction in a running engine, as a meaning and as a step (42_load.md, 43_control.md, 60_exceptions.md R86). -/

namespace Sys2Proof.Machine

/-! ### The indexed and indirect modes -/

theorem zpNext_eq (w : ZpPtrWrap) (z : Byte) : zpNext w z = if w = .page then zext16 (z + 1) else zext16 z + 1 := by
  cases w <;> rfl

theorem cross_eq (base ea : Word) : cross base ea = decide (hiByte ea ≠ hiByte base) := by
  simp [cross, bne, BEq.beq]

theorem resolveValue_absX {s : State} {c : Int} (p : Params) (h : s.mode = .running c) :
    resolveValue p .absX s =
      (memRead (hiLo (memRead (s.PC + 1) s) (memRead s.PC s) + zext16 s.X) s,
        { s with PC := s.PC + 2, mode := .running (c - 3) }) := by
  simp only [resolveValue, resolveAddr_eq, operandAbsX, readByte, advance_X, memRead_advance,
    charge_advance_advance_eq 1 h, Int.reduceAdd]

theorem resolveValue_absY {s : State} {c : Int} (p : Params) (h : s.mode = .running c) :
    resolveValue p .absY s =
      (memRead (hiLo (memRead (s.PC + 1) s) (memRead s.PC s) + zext16 s.Y) s,
        { s with PC := s.PC + 2, mode := .running (c - 3) }) := by
  simp only [resolveValue, resolveAddr_eq, operandAbsY, readByte, advance_Y, memRead_advance,
    charge_advance_advance_eq 1 h, Int.reduceAdd]

theorem resolveValue_indX {s : State} {c : Int} (p : Params) (h : s.mode = .running c) :
    resolveValue p .indX s =
      (memRead (indYBase p.zpPtrWrap (memRead s.PC s + s.X) s) s,
        { s with PC := s.PC + 1, mode := .running (c - 5) }) := by
  simp only [resolveValue, fetchByte, operandIndX_eq, advance_X, memRead_advance, charge_advance_eq 4 h,
    Int.reduceAdd, indYBase]

theorem resolveValue_indY {s : State} {c : Int} (p : Params) (h : s.mode = .running c) :
    let base := indYBase p.zpPtrWrap (memRead s.PC s) s
    resolveValue p .indY s =
      (memRead (base + zext16 s.Y) s,
        { s with
          PC := s.PC + 1
          mode := .running (c - if hiByte (base + zext16 s.Y) = hiByte base then 4 else 5) }) := by
  simp only [resolveValue, fetchByte, operandIndY_eq, charge_advance_eq _ h, cross_eq, indYBase, memRead_advance,
    advance_Y]
  split <;> simp_all

/-- Settles O17: one lemma per mode, with the pointer's high byte read where `zpNext` says. -/
theorem indexedAndIndirectModesResolve : Obligations.IndexedAndIndirectModesResolve := by
  intro p s c h
  simp only [← zpNext_eq]
  exact ⟨resolveValue_absX p h, resolveValue_absY p h, resolveValue_indX p h, resolveValue_indY p h⟩

/-! ### LDA: the loaded byte, the bytes passed and the cycles -/

/-- What A holds after an instruction that is executed at `s`: the byte at the effective address of an LDA
(42_load.md R72 to R79), and A as it is after a JSR. -/
def State.accumulatorAfter (s : State) : Instr → Byte
  | .ldaIndX zz => memRead (hiLo (memRead (zext16 (zz + s.X + 1)) s) (memRead (zext16 (zz + s.X)) s)) s
  | .ldaZp zz => memRead (zext16 zz) s
  | .ldaImm nn => nn
  | .ldaAbs addr => memRead addr s
  | .ldaIndY zz => memRead (hiLo (memRead (zext16 (zz + 1)) s) (memRead (zext16 zz) s) + zext16 s.Y) s
  | .ldaZpX zz => memRead (zext16 (zz + s.X)) s
  | .ldaAbsY base => memRead (base + zext16 s.Y) s
  | .ldaAbsX base => memRead (base + zext16 s.X) s
  | .jsrAbs _ | .jsrIndX | .jsrZp | .jsrImm | .jsrIndY | .jsrZpX | .jsrAbsY | .jsrAbsX => s.A

/-- The state after an LDA that has loaded `v`, with PC and the count that are given. -/
def State.loaded (s : State) (v : Byte) (pc : Word) (n : Int) : State :=
  { s with A := v, P := s.P.setZN v, PC := pc, mode := .running n }

/-- The state that an LDA answers in a running engine, after the opcode fetch: the table's cycles and the length,
less the opcode's. -/
theorem exec_of_lda {i : Instr} {s : State} {c : Int} (hi : i.operation = .lda) (hm : s.mode = .running c) :
    exec i s = .next (s.loaded (s.accumulatorAfter i) (s.PC + BitVec.ofNat 16 (i.length - 1))
      (c - (s.cyclesOf i - 1))) := by
  cases i with
  | ldaImm nn =>
    exact (duringCall_running _ hm).trans (by rw [advance_eq hm]; rfl)
  | ldaZp zz =>
    exact (duringCall_running _ hm).trans (by rw [operandZp, readByte, charge_advance_eq 1 hm]; rfl)
  | ldaZpX zz =>
    exact (duringCall_running _ hm).trans (by rw [operandZpX_eq, charge_advance_eq 2 hm]; rfl)
  | ldaIndX zz =>
    exact (duringCall_running _ hm).trans (by rw [operandIndX_eq, charge_advance_eq 4 hm]; rfl)
  | ldaAbs addr =>
    exact (duringCall_running _ hm).trans (by rw [operandAbs, readByte, charge_advance_advance_eq 1 hm]; rfl)
  | ldaAbsX base =>
    exact (duringCall_running _ hm).trans (by rw [operandAbsX, readByte, charge_advance_advance_eq 1 hm]; rfl)
  | ldaAbsY base =>
    exact (duringCall_running _ hm).trans (by rw [operandAbsY, readByte, charge_advance_advance_eq 1 hm]; rfl)
  | ldaIndY zz =>
    refine (duringCall_running _ hm).trans ?_
    rw [operandIndY_eq, charge_advance_eq _ hm]
    have hcharge : 1 + (if cross (indYBase .page zz s) (indYBase .page zz s + zext16 s.Y) then 4 else 3) =
        s.cyclesOf (.ldaIndY zz) - 1 := by
      rw [show s.cyclesOf (.ldaIndY zz) =
        if cross (indYBase .page zz s) (indYBase .page zz s + zext16 s.Y) then 6 else 5 from rfl]
      split <;> rfl
    rw [← hcharge]
    rfl
  | jsrAbs _ | jsrIndX | jsrZp | jsrImm | jsrIndY | jsrZpX | jsrAbsY | jsrAbsX => cases hi

/-- A step that fetches an LDA passes its whole length and charges its row of the cycle table. -/
theorem step_of_lda {i : Instr} {s : State} {c : Int} (hi : i.operation = .lda) (hm : s.mode = .running c)
    (hc : 0 < c) (hf : s.fetches i) :
    step s = .next (s.loaded (s.accumulatorAfter i) (s.PC + BitVec.ofNat 16 i.length) (c - s.cyclesOf i)) := by
  have hexec := exec_of_lda (s := advance s) (c := c - 1) hi (congrArg (Mode.charge 1) hm)
  have hvalue : (advance s).accumulatorAfter i = s.accumulatorAfter i := by cases i <;> rfl
  have hcycles : (advance s).cyclesOf i = s.cyclesOf i := by cases i <;> rfl
  have hcount : c - 1 - (s.cyclesOf i - 1) = c - s.cyclesOf i := by omega
  have hPC : (advance s).PC + BitVec.ofNat 16 (i.length - 1) = s.PC + BitVec.ofNat 16 i.length := by
    rw [advance_PC, Instr.length, Nat.add_sub_cancel_left, BitVec.ofNat_add, ← BitVec.add_assoc]
    rfl
  rw [step_of_fetches hm hc hf, hexec, hvalue, hcycles, hcount, hPC]
  rfl

/-- The three bytes at PC are fetched as the instruction that they decode to. -/
theorem fetches_of_bytes {s : State} {op b1 b2 : Byte} {i : Instr} {rest : List Byte}
    (hd : decode [op, b1, b2] = .ok (i, rest)) (h0 : memRead s.PC s = op) (h1 : memRead (s.PC + 1) s = b1)
    (h2 : memRead (s.PC + 2) s = b2) : s.fetches i :=
  ⟨rest, by rw [fetchWindow, h0, h1, h2]; exact hd⟩

/-- Settles O36, by `exec_of_lda` and `step_of_lda`: the operand byte is the value, and the row charges 2 cycles. -/
theorem ldaImmediateLoadsItsOperand : Obligations.LdaImmediateLoadsItsOperand :=
  fun _ _ nn hm => ⟨exec_of_lda rfl hm, fun hc hop hnn =>
    step_of_lda (i := .ldaImm nn) rfl hm hc (fetches_of_bytes rfl hop hnn rfl)⟩

/-- Settles O37, by `exec_of_lda` and `step_of_lda`: one byte read in the zero page, 3 cycles. -/
theorem ldaZeroPageLoads : Obligations.LdaZeroPageLoads :=
  fun _ _ zz hm => ⟨exec_of_lda rfl hm, fun hc hop hzz =>
    step_of_lda (i := .ldaZp zz) rfl hm hc (fetches_of_bytes rfl hop hzz rfl)⟩

/-- Settles O38, by `exec_of_lda` and `step_of_lda`: the index sum is taken in 8 bits, 4 cycles. -/
theorem ldaZeroPageXWrapsInThePage : Obligations.LdaZeroPageXWrapsInThePage :=
  fun _ _ zz hm => ⟨exec_of_lda rfl hm, fun hc hop hzz =>
    step_of_lda (i := .ldaZpX zz) rfl hm hc (fetches_of_bytes rfl hop hzz rfl)⟩

/-- Settles O39, by `exec_of_lda` and `step_of_lda`: one byte read at the operand address, 4 cycles. -/
theorem ldaAbsoluteLoads : Obligations.LdaAbsoluteLoads :=
  fun _ _ hh ll hm => ⟨exec_of_lda rfl hm, fun hc hop hll hhh =>
    step_of_lda (i := .ldaAbs (hiLo hh ll)) rfl hm hc (fetches_of_bytes rfl hop hll hhh)⟩

/-- Settles O40, by `exec_of_lda` and `step_of_lda`: the sum with X is taken in 16 bits, with no crossing cycle. -/
theorem ldaAbsoluteXWrapsWithoutPenalty : Obligations.LdaAbsoluteXWrapsWithoutPenalty :=
  fun _ _ hh ll hm => ⟨exec_of_lda rfl hm, fun hc hop hll hhh =>
    step_of_lda (i := .ldaAbsX (hiLo hh ll)) rfl hm hc (fetches_of_bytes rfl hop hll hhh)⟩

/-- Settles O41, by `exec_of_lda` and `step_of_lda`: the sum with Y is taken in 16 bits, with no crossing cycle. -/
theorem ldaAbsoluteYWrapsWithoutPenalty : Obligations.LdaAbsoluteYWrapsWithoutPenalty :=
  fun _ _ hh ll hm => ⟨exec_of_lda rfl hm, fun hc hop hll hhh =>
    step_of_lda (i := .ldaAbsY (hiLo hh ll)) rfl hm hc (fetches_of_bytes rfl hop hll hhh)⟩

/-- Settles O42, by `exec_of_lda` and `step_of_lda`: the pointer is read at the index sum in the zero page, 6 cycles. -/
theorem ldaIndexedIndirectLoadsThroughPointer : Obligations.LdaIndexedIndirectLoadsThroughPointer :=
  fun _ _ zz hm => ⟨exec_of_lda rfl hm, fun hc hop hzz =>
    step_of_lda (i := .ldaIndX zz) rfl hm hc (fetches_of_bytes rfl hop hzz rfl)⟩

/-- The row of `(zz),Y` in the cycle table: five cycles, and one more where the high byte changes. -/
theorem cyclesOf_ldaIndY (s : State) (zz : Byte) :
    let base := hiLo (memRead (zext16 (zz + 1)) s) (memRead (zext16 zz) s)
    s.cyclesOf (.ldaIndY zz) = 5 + if hiByte (base + zext16 s.Y) = hiByte base then 0 else 1 := by
  simp only [State.cyclesOf, State.crossesPage, bne_iff_ne, ne_eq, ite_not]
  split <;> rfl

/-- Settles O43, by the row of `exec_of_lda` and `step_of_lda`, whose cycles are five and one more on a crossing. -/
theorem ldaIndirectIndexedChargesPageCrossing : Obligations.LdaIndirectIndexedChargesPageCrossing := by
  intro s c zz hm base ea v extra loaded
  have hcycles : s.cyclesOf (.ldaIndY zz) = 5 + extra := cyclesOf_ldaIndY s zz
  refine ⟨?_, fun hc hop hzz => ?_⟩
  · rw [exec_of_lda rfl hm, hcycles, show c - (5 + extra - 1) = c - 4 - extra by omega]
    rfl
  · rw [step_of_lda (i := .ldaIndY zz) rfl hm hc (fetches_of_bytes rfl hop hzz rfl), hcycles, ← Int.sub_sub]
    rfl

/-! ### JSR -/

/-- The state that JSR absolute answers in a running engine, after the opcode fetch. -/
theorem exec_jsrAbs {s : State} {c : Int} (target : Word) (hm : s.mode = .running c) :
    exec (.jsrAbs target) s = .next
      { s with
        mem := (push16 (s.PC + 2) s).mem
        SP := s.SP - 2
        PC := target
        mode := .running (c - 5) } := by
  refine (duringCall_running _ hm).trans ?_
  rw [advance_advance_eq hm, jumpToSubroutine_eq, charge_running, Int.sub_sub]
  rfl

/-- The state that a step answers that fetches JSR absolute. -/
theorem step_of_fetches_jsrAbs {s : State} {c : Int} {target : Word} (hm : s.mode = .running c) (hc : 0 < c)
    (hf : s.fetches (.jsrAbs target)) :
    step s = .next
      { s with
        mem := (push16 (s.PC + 3) s).mem
        SP := s.SP - 2
        PC := target
        mode := .running (c - 6) } := by
  rw [step_of_fetches hm hc hf, exec_jsrAbs (c := c - 1) target (congrArg (Mode.charge 1) hm), Int.sub_sub,
    advance_PC, BitVec.add_assoc]
  rfl

/-- Settles O44: the memory is that of the push, which reads back. -/
theorem jsrPushesReturnAddressAndJumps : Obligations.JsrPushesReturnAddressAndJumps :=
  fun s _ _ _ hm =>
    ⟨⟨_, exec_jsrAbs _ hm, memRead_pushLoAddr_push16 _ s, memRead_pushHiAddr_push16 _ s⟩,
      fun hc hop hll hhh => ⟨_, step_of_fetches_jsrAbs hm hc (fetches_of_bytes rfl hop hll hhh),
        memRead_pushLoAddr_push16 _ s, memRead_pushHiAddr_push16 _ s⟩⟩

/-- Settles O45: the state after JSR is `exec_jsrAbs`, whose memory is that of the push. -/
theorem jsrFrame : Obligations.JsrFrame := by
  intro s t target h
  obtain ⟨c, hm, -⟩ := exec_cases h
  cases h.symm.trans (exec_jsrAbs target hm)
  refine ⟨rfl, rfl, rfl, rfl, rfl, ?_⟩
  rintro lo hi rfl rfl a hlo hhi
  exact memRead_push16_of_ne (s := s) (s.PC + 2) hlo hhi

/-- Settles O47: PC is SP-2, and the fetch reads the pushed bytes there and at SP-1. -/
theorem fetchSeesPushedBytes : Obligations.FetchSeesPushedBytes := by
  intro s t h
  obtain ⟨c, hm, -⟩ := exec_cases h
  cases h.symm.trans (exec_jsrAbs _ hm)
  have hnext : s.SP - 2 + 1 = s.SP - 1 := by bv_omega
  have hlo := memRead_pushLoAddr_push16 (s.PC + 2) s
  have hhi := memRead_pushHiAddr_push16 (s.PC + 2) s
  rw [← hnext] at hhi
  exact congrArg₂ (fun lo hi => [lo, hi]) hlo hhi

theorem exec_of_jsr_mode {i : Instr} {s : State} {c : Int} (hi : i.operation = .jsr) (hmode : i.mode ≠ .abs)
    (hm : s.mode = .running c) : exec i s = .next (raise (.unhandledAddressingMode i.mode) s) := by
  cases i with
  | jsrIndX | jsrZp | jsrImm | jsrIndY | jsrZpX | jsrAbsY | jsrAbsX => exact duringCall_running _ hm
  | jsrAbs _ => exact absurd rfl hmode
  | ldaIndX _ | ldaZp _ | ldaImm _ | ldaAbs _ | ldaIndY _ | ldaZpX _ | ldaAbsY _ | ldaAbsX _ => cases hi

/-- Settles O20: each row is dispatched to the raising of its error. -/
theorem jsrInOtherModesRaisesAtDispatch : Obligations.JsrInOtherModesRaisesAtDispatch := by
  intro s c hm ended
  have hended (m : AddrMode) : raise (.unhandledAddressingMode m) s = ended m := raise_eq _ hm
  have hrow (i : Instr) (hi : i.operation = .jsr) (hmode : i.mode ≠ .abs) : exec i s = .next (ended i.mode) := by
    rw [exec_of_jsr_mode hi hmode hm, hended]
  exact ⟨hrow _ rfl (by decide), hrow _ rfl (by decide), hrow _ rfl (by decide), hrow _ rfl (by decide),
    hrow _ rfl (by decide), hrow _ rfl (by decide), hrow _ rfl (by decide)⟩

/-! ### The three kinds of instruction -/

/-- Every instruction is an LDA, the absolute JSR or a JSR that raises. -/
theorem lda_or_jsrAbs_or_jsr_mode (i : Instr) :
    i.operation = .lda ∨ (∃ target, i = .jsrAbs target) ∨ (i.operation = .jsr ∧ i.mode ≠ .abs) := by
  cases i with
  | ldaIndX _ | ldaZp _ | ldaImm _ | ldaAbs _ | ldaIndY _ | ldaZpX _ | ldaAbsY _ | ldaAbsX _ => exact .inl rfl
  | jsrAbs target => exact .inr (.inl ⟨target, rfl⟩)
  | jsrIndX | jsrZp | jsrImm | jsrIndY | jsrZpX | jsrAbsY | jsrAbsX => exact .inr (.inr ⟨rfl, by decide⟩)

/-- A step that fetches a JSR in a mode without a handler ends the call after the opcode fetch. -/
theorem step_of_fetches_jsr_mode {i : Instr} {s : State} {c : Int} (hi : i.operation = .jsr) (hmode : i.mode ≠ .abs)
    (hm : s.mode = .running c) (hc : 0 < c) (hf : s.fetches i) :
    step s = .next (raise (.unhandledAddressingMode i.mode) (advance s)) :=
  (step_of_fetches hm hc hf).trans (exec_of_jsr_mode hi hmode (congrArg (Mode.charge 1) hm))

end Sys2Proof.Machine
end

section
/-! PROOFS. What a step answers and how a call ends (40_engine.md R49 to R53, 60_exceptions.md R84 to R90). -/

namespace Sys2Proof.Machine

/-! ### The step as fetch and execution -/

/-- Settles O18: a fetched instruction runs after the opcode fetch, and a fetch that is no instruction raises. -/
theorem stepFetchesThenRunsTheDecodedInstruction : Obligations.StepFetchesThenRunsTheDecodedInstruction := by
  refine fun s c hm hc => ⟨fun i hf => ?_, fun hnone => ?_⟩
  · rw [step_of_fetches hm hc hf, advance_eq hm]
  · obtain ⟨e, hd⟩ := not_fetches_iff.mp hnone
    rw [step_of_decode_error hm hc hd, raise_advance_eq _ hm]

/-- Settles O24: a spent pass is the end of the call, which reports the count as it is. -/
theorem spentBudgetReturnsOk : Obligations.SpentBudgetReturnsOk :=
  fun _ _ hm hc => by rw [step_of_spent hm hc, endCall_eq _ hm]

/-- An opcode byte whose two halves decode is fetched as an instruction of that operation and mode. -/
theorem fetches_of_decodeOp {s : State} {o : Operation} {m : AddrMode}
    (hd : decodeOp Params.standard (memRead s.PC s) = (some o, some m)) :
    ∃ i, s.fetches i ∧ i.operation = o ∧ i.mode = m := by
  have hw := decode_cons_of_decodeOp [memRead (s.PC + 1) s, memRead (s.PC + 2) s] hd
  cases o <;> cases m <;> exact ⟨_, ⟨_, hw⟩, rfl, rfl⟩

/-! ### Errors -/

/-- A meaning that ends the call is a JSR in a mode without a handler. -/
theorem jsr_mode_of_exec_to_idle {i : Instr} {s t : State} (h : exec i s = .next t) (hidle : t.mode = .idle) :
    i.operation = .jsr ∧ i.mode ≠ .abs := by
  obtain ⟨c, hm, -⟩ := exec_cases h
  obtain hi | ⟨target, rfl⟩ | hjsr := lda_or_jsrAbs_or_jsr_mode i
  · cases h.symm.trans (exec_of_lda hi hm)
    cases hidle
  · cases h.symm.trans (exec_jsrAbs target hm)
    cases hidle
  · exact hjsr

/-- With cycles left, a step that ends the call has raised UnknownOpcode, or UnhandledAddressingMode of a JSR. -/
theorem step_to_idle {s t : State} {c : Int} (hm : s.mode = .running c) (hc : 0 < c) (h : step s = .next t)
    (hidle : t.mode = .idle) :
    t = raise (.unknownOpcode (memRead s.PC s)) (advance s) ∨
    ∃ i, s.fetches i ∧ i.operation = .jsr ∧ i.mode ≠ .abs ∧
      t = raise (.unhandledAddressingMode i.mode) (advance s) := by
  obtain ⟨hm', -⟩ | ⟨c', hm', hc', -⟩ | ⟨-, -, -, ⟨e, -, rfl⟩ | ⟨i, hf, hexec⟩⟩ := step_cases h
  · cases hm.symm.trans hm'
  · cases hm.symm.trans hm'
    omega
  · exact .inl rfl
  · obtain ⟨hi, hmode⟩ := jsr_mode_of_exec_to_idle hexec hidle
    exact .inr ⟨i, hf, hi, hmode, exec_to_idle hexec hidle⟩

/-- The report of an error that is raised right after the opcode fetch. -/
theorem raise_advance_returned {s : State} {c : Int} (e : EngineError) (hm : s.mode = .running c) :
    (raise e (advance s)).returned = some { result := .err e, cyc := c - 1 } :=
  raise_returned e (congrArg (Mode.charge 1) hm)

/-- The encoding of JSR in a mode without a handler at PC: the step ends the call after the opcode fetch. -/
theorem step_of_jsr_mode {s : State} {c : Int} {m : AddrMode} (hm : s.mode = .running c) (hc : 0 < c)
    (hmode : m ≠ .abs) (hop : memRead s.PC s = encodeOp Params.standard .jsr m) :
    step s = .next (raise (.unhandledAddressingMode m) (advance s)) := by
  obtain ⟨i, hf, hi, rfl⟩ := fetches_of_decodeOp (hop ▸ decodeOp_encodeOp_standard .jsr m)
  exact step_of_fetches_jsr_mode hi hmode hm hc hf

/-- Settles O21: of the two errors a step raises only JSR's is the mode error, and its opcode byte is the encoding of
the pair it decodes to. -/
theorem unhandledModeIsRaisedExactlyByJsr : Obligations.UnhandledModeIsRaisedExactlyByJsr := by
  intro s c hm hc m
  refine ⟨⟨?_, ?_⟩, fun hmode hop => ?_⟩
  · rintro ⟨t, c', hstep, hidle, hret⟩
    obtain rfl | ⟨i, hf, hi, hmode, rfl⟩ := step_to_idle hm hc hstep hidle
    · cases (raise_advance_returned _ hm).symm.trans hret
    · cases (raise_advance_returned _ hm).symm.trans hret
      exact ⟨hmode, hi ▸ (encodeOp_of_decodeOp standard_wellFormed (fetches_opcode hf)).symm⟩
  · rintro ⟨hmode, hop⟩
    exact ⟨_, _, step_of_jsr_mode hm hc hmode hop, raise_mode _ _, raise_advance_returned _ hm⟩
  · rw [step_of_jsr_mode hm hc hmode hop, raise_advance_eq _ hm]

/-- Settles O23: by O22 the state after the error is the one before it with the opcode fetched, and the new call sets
what differs. -/
theorem newCallResumesPastTheErroringOpcode : Obligations.NewCallResumesPastTheErroringOpcode := by
  intro s t c budget hm hc hstep hidle
  obtain ⟨e, rfl⟩ := errorChangesOnlyPcAndCount s t c hm hc hstep hidle
  exact hostAct_of_idle _ hidle

/-- Settles O34: a call ends with Ok where the budget is spent, and else with one of the other two errors. -/
theorem unhandledInstructionIsUnreachable : Obligations.UnhandledInstructionIsUnreachable := by
  intro s t c c' i hm hstep hidle hret
  by_cases hc : 0 < c
  · obtain rfl | ⟨j, -, -, -, rfl⟩ := step_to_idle hm hc hstep hidle
    · cases (raise_advance_returned _ hm).symm.trans hret
    · cases (raise_advance_returned _ hm).symm.trans hret
  · cases hstep.symm.trans (step_of_spent hm (by omega))
    cases (endCall_returned _ hm).symm.trans hret

/-! ### The literal iteration -/

theorem iterate_of_decodeOp {p : Params} {s : State} {i : Operation} {m : AddrMode}
    (hd : decodeOp p (memRead s.PC s) = (some i, some m)) :
    iterate p s = if i ∈ p.handled then dispatchHandler p i m (advance s)
      else raise (.unhandledInstruction i) (advance s) := by
  simp only [iterate, fetchByte, dispatchOpcode, hd]

theorem iterate_of_no_match {p : Params} {s : State}
    (h : (decodeOp p (memRead s.PC s)).1 = none ∨ (decodeOp p (memRead s.PC s)).2 = none) :
    iterate p s = raise (.unknownOpcode (memRead s.PC s)) (advance s) :=
  dispatchOpcode_of_no_match (advance s) h

/-- Settles O33: the look-ups come first, then HANDLED, then the operation and its mode. -/
theorem dispatchChecksInOrder : Obligations.DispatchChecksInOrder := by
  refine fun p s => ⟨iterate_of_no_match, fun i m hd hi => ?_, fun m hd hi hmode => ?_, fun hd hi => ?_,
    fun m hd hi => ?_⟩
  · rw [iterate_of_decodeOp hd, if_neg hi]
  · rw [iterate_of_decodeOp hd, if_pos hi, dispatchHandler, if_neg hmode]
  · rw [iterate_of_decodeOp hd, if_pos hi, dispatchHandler, if_pos rfl]
  · rw [iterate_of_decodeOp hd, if_pos hi, dispatchHandler]

/-- Settles O30: where the opcode byte decodes, an LDA, the absolute JSR and a JSR that raises are the handler's three
ways; where it does not, both raise UnknownOpcode. -/
theorem stepIsOneIterationOfTheLiteralLoop : Obligations.StepIsOneIterationOfTheLiteralLoop := by
  intro s c hm hc
  obtain ⟨hunknown, -, hmodeError, hjsr, hlda⟩ := dispatchChecksInOrder Params.standard s
  cases hd : decode (fetchWindow s) with
  | error e =>
    rw [hunknown (decode_three _ _ _ e hd).2, step_of_decode_error hm hc hd]
  | ok r =>
    have hf : s.fetches r.1 := ⟨r.2, hd⟩
    have hop := fetches_opcode hf
    obtain hi | ⟨target, hi⟩ | ⟨hi, hmode⟩ := lda_or_jsrAbs_or_jsr_mode r.1
    · rw [hi] at hop
      rw [step_of_fetches_lda hm hc hf hi, hlda _ hop (handled_standard _)]
    · rw [hi] at hop
      rw [hjsr hop (handled_standard _)]
      exact step_of_jsrAbs hm hc (encodeOp_of_decodeOp standard_wellFormed hop).symm
    · rw [hi] at hop
      rw [step_of_fetches_jsr_mode hi hmode hm hc hf, hmodeError _ hop (handled_standard _) hmode]

/-! ### The literal call -/

/-- Every mode's resolver charges 1 to 5 cycles, under any parameters. -/
theorem resolveValue_mode {s : State} {c : Int} (p : Params) (m : AddrMode) (hm : s.mode = .running c) :
    ∃ n : Int, 1 ≤ n ∧ n ≤ 5 ∧ (resolveValue p m s).2.mode = .running (c - n) := by
  cases m with
  | imm => exact ⟨1, by decide, by decide, by rw [resolveValue_imm p hm]⟩
  | zp => exact ⟨2, by decide, by decide, by rw [resolveValue_zp p hm]⟩
  | zpX => exact ⟨3, by decide, by decide, by rw [resolveValue_zpX p hm]⟩
  | abs => exact ⟨3, by decide, by decide, by rw [resolveValue_abs p hm]⟩
  | absX => exact ⟨3, by decide, by decide, by rw [resolveValue_absX p hm]⟩
  | absY => exact ⟨3, by decide, by decide, by rw [resolveValue_absY p hm]⟩
  | indX => exact ⟨5, by decide, by decide, by rw [resolveValue_indX p hm]⟩
  | indY =>
    rw [resolveValue_indY p hm]
    split
    · exact ⟨4, by decide, by decide, rfl⟩
    · exact ⟨5, by decide, by decide, rfl⟩

/-- An iteration either charges 2 to 6 cycles and goes on, or raises an error after the opcode fetch. -/
theorem iterate_cases {s : State} {c : Int} (p : Params) (hm : s.mode = .running c) :
    (∃ n : Int, 2 ≤ n ∧ n ≤ 6 ∧ (iterate p s).mode = .running (c - n)) ∨
    ∃ e, iterate p s = raise e (advance s) := by
  obtain ⟨hunknown, hunhandled, hmodeError, hjsr, hlda⟩ := dispatchChecksInOrder p s
  have hadv : (advance s).mode = .running (c - 1) := congrArg (Mode.charge 1) hm
  match hd : decodeOp p (memRead s.PC s) with
  | (none, _) => exact .inr ⟨_, hunknown (.inl (congrArg Prod.fst hd))⟩
  | (some _, none) => exact .inr ⟨_, hunknown (.inr (congrArg Prod.snd hd))⟩
  | (some i, some m) =>
    by_cases hi : i ∈ p.handled
    · cases i with
      | lda =>
        obtain ⟨n, h1, h5, hn⟩ := resolveValue_mode p m hadv
        refine .inl ⟨1 + n, by omega, by omega, ?_⟩
        rw [hlda m hd hi, ← Int.sub_sub, ← hn]
        rfl
      | jsr =>
        by_cases hmode : m = .abs
        · subst hmode
          refine .inl ⟨6, by decide, by decide, ?_⟩
          rw [hjsr hd hi]
          simp only [execJSR, resolveAddr_eq, jumpToSubroutine_mode, advance_mode, hm, charge_running, Int.sub_sub]
          rfl
        · exact .inr ⟨_, hmodeError m hd hi hmode⟩
    · exact .inr ⟨_, hunhandled i m hd hi⟩

theorem executeLoop_of_idle {s : State} (p : Params) (fuel : Nat) (hm : s.mode = .idle) :
    executeLoop p fuel s = s := by
  cases fuel <;> simp [executeLoop, hm]

theorem executeLoop_of_spent {s : State} {c : Int} (p : Params) (fuel : Nat) (hm : s.mode = .running c)
    (hc : c ≤ 0) : executeLoop p (fuel + 1) s = endCall .ok s := by
  simp [executeLoop, hm, show ¬ 0 < c by omega]

theorem executeLoop_of_running {s : State} {c : Int} (p : Params) (fuel : Nat) (hm : s.mode = .running c)
    (hc : 0 < c) : executeLoop p (fuel + 1) s = executeLoop p fuel (iterate p s) := by
  simp [executeLoop, hm, hc]

/-- A state in which a call has returned, with the bounds of a count after Ok (40_engine.md R52). -/
def State.hasReturned (s : State) : Prop :=
  s.mode = .idle ∧ ∃ r, s.returned = some r ∧ (r.result = .ok → -5 ≤ r.cyc ∧ r.cyc ≤ 0)

/-- With more fuel than cycles left the loop returns: each iteration charges at least one cycle, and at most six from
a count of at least 1. -/
theorem executeLoop_hasReturned (p : Params) : ∀ (fuel : Nat) (s : State) (c : Int), s.mode = .running c → -5 ≤ c →
    c.toNat < fuel → (executeLoop p fuel s).hasReturned
  | 0, _, _, _, _, hfuel => absurd hfuel (Nat.not_lt_zero _)
  | fuel + 1, s, c, hm, hlow, hfuel => by
    by_cases hc : 0 < c
    · rw [executeLoop_of_running p fuel hm hc]
      obtain ⟨n, h2, h6, hn⟩ | ⟨e, he⟩ := iterate_cases p hm
      · exact executeLoop_hasReturned p fuel _ _ hn (by omega) (by omega)
      · rw [he, executeLoop_of_idle p fuel (raise_mode _ _)]
        exact ⟨rfl, _, raise_advance_returned e hm, fun h => nomatch h⟩
    · have hspent : c ≤ 0 := by omega
      rw [executeLoop_of_spent p fuel hm hspent]
      exact ⟨rfl, _, endCall_returned .ok hm, fun _ => ⟨hlow, hspent⟩⟩

/-- The call returns under any parameters, from any state. -/
theorem execute_hasReturned (p : Params) (budget : BitVec 32) (s : State) : (execute p budget s).hasReturned :=
  executeLoop_hasReturned p _ _ budget.toNat rfl (by omega) (by omega)

/-- Settles O32: the call's fuel is one more than its count. -/
theorem executeReturnsUnderEveryParameter : Obligations.ExecuteReturnsUnderEveryParameter :=
  fun p s budget _ => execute_hasReturned p budget s

/-! ### Runs of steps -/

/-- A run of steps is the literal loop with that fuel. -/
theorem run_eq_executeLoop : ∀ (fuel : Nat) (s : State),
    Sys2Proof.core.run fuel s = .next (executeLoop Params.standard fuel s)
  | 0, _ => rfl
  | fuel + 1, s => by
    cases hm : s.mode with
    | idle => rw [run_of_idle hm, executeLoop_of_idle _ _ hm]
    | running c =>
      by_cases hc : 0 < c
      · rw [run_succ_of_next fuel (stepIsOneIterationOfTheLiteralLoop s c hm hc), run_eq_executeLoop fuel,
          executeLoop_of_running _ _ hm hc]
      · have hspent : c ≤ 0 := by omega
        rw [run_succ_of_next fuel (step_of_spent hm hspent), run_of_idle (endCall_mode _ _),
          executeLoop_of_spent _ _ hm hspent]

/-- Settles O31: `execute` is the loop from the start of the call. -/
theorem runOfStepsIsTheLiteralExecute : Obligations.RunOfStepsIsTheLiteralExecute :=
  fun s budget => run_eq_executeLoop (budget.toNat + 1) (beginCall budget s)

/-- Settles O27: the run is the literal call, which has returned. -/
theorem executeReturnsWithinBudget : Obligations.ExecuteReturnsWithinBudget := by
  intro s budget _
  obtain ⟨hidle, r, hr, -⟩ := execute_hasReturned Params.standard budget s
  exact ⟨_, r, runOfStepsIsTheLiteralExecute s budget, hidle, hr⟩

/-- A running engine's literal loop ends idle with enough fuel, from a count below -5 too. -/
theorem exists_executeLoop_idle {s : State} {c : Int} (p : Params) (hm : s.mode = .running c) :
    ∃ fuel, (executeLoop p fuel s).mode = .idle := by
  by_cases hc : 0 < c
  · exact ⟨c.toNat + 1, (executeLoop_hasReturned p _ s c hm (by omega) (by omega)).1⟩
  · exact ⟨1, by rw [executeLoop_of_spent p 0 hm (by omega), endCall_mode]⟩

/-- Settles O26: idle, spent or iterating, a step answers a next state; one that ends the call reports Ok, or by O22
an error; and a run of steps is the literal loop, which ends. -/
theorem stepAlwaysAnswersNext : Obligations.StepAlwaysAnswersNext := by
  refine fun s => ⟨?_, fun c hm => ?_⟩
  · cases hm : s.mode with
    | idle => exact ⟨s, step_of_idle hm, fun _ h => nomatch h⟩
    | running c =>
      by_cases hc : 0 < c
      · have hstep := stepIsOneIterationOfTheLiteralLoop s c hm hc
        refine ⟨_, hstep, fun c' hm' hidle => ?_⟩
        cases hm'
        obtain ⟨e, he⟩ := errorChangesOnlyPcAndCount _ _ _ hm hc hstep hidle
        exact .inr ⟨hc, e, congrArg State.returned he⟩
      · have hspent : c ≤ 0 := by omega
        refine ⟨_, step_of_spent hm hspent, fun c' hm' _ => ?_⟩
        cases hm'
        exact .inl ⟨hspent, endCall_returned _ hm⟩
  · obtain ⟨fuel, hidle⟩ := exists_executeLoop_idle Params.standard hm
    exact ⟨fuel, _, run_eq_executeLoop fuel s, hidle⟩

/-- Settles O28: the call starts with its budget spent. -/
theorem executeZeroFetchesNothing : Obligations.ExecuteZeroFetchesNothing := by
  intro s hm
  rw [run_succ_of_next 0 (spentBudgetReturnsOk (beginCall 0 s) 0 rfl le_rfl), run_zero, ← hm]
  rfl

/-- A meaning that leaves the engine running has charged 1 to 5 cycles. -/
theorem exec_running_bounds {i : Instr} {s t : State} {c n : Int} (h : exec i s = .next t)
    (hm : s.mode = .running c) (hn : t.mode = .running n) : c - 5 ≤ n ∧ n ≤ c - 1 := by
  obtain ⟨c', hm', ⟨-, hload⟩ | ⟨target, rfl, -⟩ | ⟨-, -, rfl⟩⟩ := exec_cases h
  · cases hm.symm.trans hm'
    obtain ⟨k, h1, h5, hk⟩ := hload.mode
    cases hn.symm.trans hk
    omega
  · cases h.symm.trans (exec_jsrAbs target hm)
    cases hn
    omega
  · cases hn

/-- Settles O29: the first step runs the instruction from a count of 1, the second finds it spent. -/
theorem executeOneRunsOneInstruction : Obligations.ExecuteOneRunsOneInstruction := by
  intro s t i n hm hf hexec hn
  obtain ⟨hlow, hhigh⟩ := exec_running_bounds (c := 0) hexec rfl hn
  have hfirst : step (beginCall 1 s) = .next t :=
    (step_of_fetches (s := beginCall 1 s) (c := 1) rfl (by decide) hf).trans hexec
  refine ⟨?_, hlow, hhigh⟩
  rw [run_succ_of_next 1 hfirst, run_succ_of_next 0 (spentBudgetReturnsOk t n hn (by omega)), run_zero]

end Sys2Proof.Machine
end

section
/-! PROOFS. Rules of the whole machine: who writes and reads each register, the cycle table, and the invariant
(10_state.md, 70_reset_and_hazards.md R103). -/

namespace Sys2Proof.Machine

/-! ### What an instruction reads -/

/-- An LDA in the modes zp,X, abs,X and (ind,X). -/
def readsX (i : Instr) : Prop := i.operation = .lda ∧ (i.mode = .zpX ∨ i.mode = .absX ∨ i.mode = .indX)

/-- An LDA in the modes abs,Y and (ind),Y. -/
def readsY (i : Instr) : Prop := i.operation = .lda ∧ (i.mode = .absY ∨ i.mode = .indY)

/-- An LDA loads by the memory, by X in the modes that read X and by Y in the modes that read Y. -/
theorem accumulatorAfter_congr {i : Instr} {s t : State} (hi : i.operation = .lda) (hmem : t.mem = s.mem)
    (hX : readsX i → t.X = s.X) (hY : readsY i → t.Y = s.Y) : t.accumulatorAfter i = s.accumulatorAfter i := by
  cases i with
  | ldaZpX _ => simp only [State.accumulatorAfter, memRead, hmem, hX ⟨rfl, .inl rfl⟩]
  | ldaAbsX _ => simp only [State.accumulatorAfter, memRead, hmem, hX ⟨rfl, .inr (.inl rfl)⟩]
  | ldaIndX _ => simp only [State.accumulatorAfter, memRead, hmem, hX ⟨rfl, .inr (.inr rfl)⟩]
  | ldaAbsY _ => simp only [State.accumulatorAfter, memRead, hmem, hY ⟨rfl, .inl rfl⟩]
  | ldaIndY _ => simp only [State.accumulatorAfter, memRead, hmem, hY ⟨rfl, .inr rfl⟩]
  | ldaImm _ | ldaZp _ | ldaAbs _ => simp only [State.accumulatorAfter, memRead, hmem]
  | jsrAbs _ | jsrIndX | jsrZp | jsrImm | jsrIndY | jsrZpX | jsrAbsY | jsrAbsX => cases hi

/-- The one charge that depends on the state is that of (ind),Y, which reads Y. -/
theorem cyclesOf_congr {i : Instr} {s t : State} (hmem : t.mem = s.mem) (hY : readsY i → t.Y = s.Y) :
    t.cyclesOf i = s.cyclesOf i := by
  cases i with
  | ldaIndY zz =>
    have hcross : t.crossesPage zz = s.crossesPage zz := by
      simp only [State.crossesPage, memRead, hmem, hY ⟨rfl, .inr rfl⟩]
    rw [State.cyclesOf, State.cyclesOf, hcross]
  | ldaIndX _ | ldaZp _ | ldaImm _ | ldaAbs _ | ldaZpX _ | ldaAbsY _ | ldaAbsX _ => rfl
  | jsrAbs _ | jsrIndX | jsrZp | jsrImm | jsrIndY | jsrZpX | jsrAbsY | jsrAbsX => rfl

/-- An LDA from a state that agrees in what it reads: the same byte and count over that state's other fields. -/
theorem exec_lda_congr {i : Instr} {s t : State} {c : Int} (hi : i.operation = .lda) (hm : t.mode = .running c)
    (hmem : t.mem = s.mem) (hX : readsX i → t.X = s.X) (hY : readsY i → t.Y = s.Y) :
    exec i t = .next (t.loaded (s.accumulatorAfter i) (t.PC + BitVec.ofNat 16 (i.length - 1))
      (c - (s.cyclesOf i - 1))) := by
  rw [exec_of_lda hi hm, accumulatorAfter_congr hi hmem hX hY, cyclesOf_congr hmem hY]

theorem exec_X_unread {i : Instr} {s t : State} (x : Byte) (h : exec i s = .next t) (hX : ¬ readsX i) :
    exec i { s with X := x } = .next { t with X := x } := by
  obtain ⟨c, hm, -⟩ := exec_cases h
  obtain hi | ⟨target, rfl⟩ | ⟨hi, hmode⟩ := lda_or_jsrAbs_or_jsr_mode i
  · cases h.symm.trans (exec_of_lda hi hm)
    exact exec_lda_congr (s := s) (t := { s with X := x }) hi hm rfl (fun hr => absurd hr hX) fun _ => rfl
  · cases h.symm.trans (exec_jsrAbs target hm)
    exact exec_jsrAbs (s := { s with X := x }) target hm
  · cases h.symm.trans (exec_of_jsr_mode hi hmode hm)
    exact exec_of_jsr_mode (s := { s with X := x }) hi hmode hm

theorem exec_Y_unread {i : Instr} {s t : State} (y : Byte) (h : exec i s = .next t) (hY : ¬ readsY i) :
    exec i { s with Y := y } = .next { t with Y := y } := by
  obtain ⟨c, hm, -⟩ := exec_cases h
  obtain hi | ⟨target, rfl⟩ | ⟨hi, hmode⟩ := lda_or_jsrAbs_or_jsr_mode i
  · cases h.symm.trans (exec_of_lda hi hm)
    exact exec_lda_congr (s := s) (t := { s with Y := y }) hi hm rfl (fun _ => rfl) fun hr => absurd hr hY
  · cases h.symm.trans (exec_jsrAbs target hm)
    exact exec_jsrAbs (s := { s with Y := y }) target hm
  · cases h.symm.trans (exec_of_jsr_mode hi hmode hm)
    exact exec_of_jsr_mode (s := { s with Y := y }) hi hmode hm

/-! ### A and the report are only written -/

/-- The two next states differ at most in A and in the report, and in neither of them where both started alike. -/
def AgreeButOutputs (a : Byte) (r : Option CallReturn) (s t t' : State) : Prop :=
  ∃ a' r', t' = { t with A := a', returned := r' } ∧ (a = s.A → a' = t.A) ∧ (r = s.returned → r' = t.returned)

theorem raise_agrees {s : State} (a : Byte) (r : Option CallReturn) (e : EngineError) :
    AgreeButOutputs a r s (raise e s) (raise e { s with A := a, returned := r }) :=
  ⟨a, _, rfl, id, fun h => by rw [h]; rfl⟩

theorem exec_outputs_unread {i : Instr} {s t : State} (a : Byte) (r : Option CallReturn) (h : exec i s = .next t) :
    ∃ t', exec i { s with A := a, returned := r } = .next t' ∧ AgreeButOutputs a r s t t' := by
  obtain ⟨c, hm, -⟩ := exec_cases h
  obtain hi | ⟨target, rfl⟩ | ⟨hi, hmode⟩ := lda_or_jsrAbs_or_jsr_mode i
  · cases h.symm.trans (exec_of_lda hi hm)
    exact ⟨_, exec_lda_congr (s := s) (t := { s with A := a, returned := r }) hi hm rfl (fun _ => rfl) fun _ => rfl,
      _, r, rfl, fun _ => rfl, id⟩
  · cases h.symm.trans (exec_jsrAbs target hm)
    exact ⟨_, exec_jsrAbs (s := { s with A := a, returned := r }) target hm, a, r, rfl, id, id⟩
  · cases h.symm.trans (exec_of_jsr_mode hi hmode hm)
    exact ⟨_, exec_of_jsr_mode (s := { s with A := a, returned := r }) hi hmode hm, raise_agrees a r _⟩

theorem step_outputs_unread {s t : State} (a : Byte) (r : Option CallReturn) (h : step s = .next t) :
    ∃ t', step { s with A := a, returned := r } = .next t' ∧ AgreeButOutputs a r s t t' := by
  obtain ⟨hm, rfl⟩ | ⟨c, hm, hc, rfl⟩ | ⟨c, hm, hc, ⟨e, hd, rfl⟩ | ⟨i, hf, he⟩⟩ := step_cases h
  · exact ⟨_, step_of_idle hm, a, r, rfl, id, id⟩
  · exact ⟨_, step_of_spent (s := { s with A := a, returned := r }) hm hc, a, _, rfl, id, fun h => by rw [h]; rfl⟩
  · exact ⟨_, step_of_decode_error (s := { s with A := a, returned := r }) hm hc hd,
      raise_agrees (s := advance s) a r _⟩
  · rw [step_of_fetches (s := { s with A := a, returned := r }) hm hc hf]
    exact exec_outputs_unread (s := advance s) a r he

/-- Settles O52: the step from another report differs at most in the report. -/
theorem engineNeverReadsTheReport : Obligations.EngineNeverReadsTheReport := by
  intro s t r h
  obtain ⟨_, hstep, a', r', rfl, hA, -⟩ := step_outputs_unread s.A r h
  obtain rfl := hA rfl
  exact ⟨_, hstep, rfl⟩

/-! ### Who writes each register -/

/-- No meaning writes X or Y, and only an LDA writes A. -/
theorem exec_data_registers {i : Instr} {s t : State} (h : exec i s = .next t) :
    t.X = s.X ∧ t.Y = s.Y ∧ (i.operation ≠ .lda → t.A = s.A) := by
  obtain ⟨c, -, ⟨hi, hload⟩ | ⟨target, -, rfl⟩ | ⟨-, -, rfl⟩⟩ := exec_cases h
  · exact ⟨hload.X, hload.Y, absurd hi⟩
  · exact ⟨rfl, rfl, fun _ => rfl⟩
  · exact ⟨rfl, rfl, fun _ => rfl⟩

theorem step_data_registers {s t : State} (h : step s = .next t) :
    t.X = s.X ∧ t.Y = s.Y ∧ ((∀ i, s.fetches i → i.operation ≠ .lda) → t.A = s.A) := by
  obtain ⟨-, rfl⟩ | ⟨c, -, -, rfl⟩ | ⟨c, -, -, ⟨e, -, rfl⟩ | ⟨i, hf, he⟩⟩ := step_cases h
  · exact ⟨rfl, rfl, fun _ => rfl⟩
  · exact ⟨rfl, rfl, fun _ => rfl⟩
  · exact ⟨rfl, rfl, fun _ => rfl⟩
  · obtain ⟨hX, hY, hA⟩ := exec_data_registers he
    exact ⟨hX, hY, fun hno => hA (hno i hf)⟩

/-- Settles O48: the writers by the inversion of `step`, the readers by running the same step or meaning from another
value. -/
theorem dataRegistersHaveTheStatedWritersAndReaders : Obligations.DataRegistersHaveTheStatedWritersAndReaders := by
  refine ⟨fun s t => step_data_registers, fun s c i hm hc hf hi => ⟨_, step_of_fetches_lda hm hc hf hi, rfl⟩,
    fun s t a h => ?_, fun i s t x => exec_X_unread x, fun i s t y => exec_Y_unread y,
    fun s v hm => ⟨hostAct_of_idle _ hm, hostAct_of_idle _ hm, hostAct_of_idle _ hm⟩⟩
  obtain ⟨_, hstep, a', r', rfl, -, hR⟩ := step_outputs_unread a s.returned h
  obtain rfl := hR rfl
  exact ⟨_, hstep, rfl⟩

/-- A JSR that raises is its opcode byte alone and charges its fetch alone (60_exceptions.md R87). -/
theorem jsr_mode_length_and_cycles {i : Instr} (s : State) (hi : i.operation = .jsr) (hmode : i.mode ≠ .abs) :
    i.length = 1 ∧ s.cyclesOf i = 1 := by
  cases i with
  | jsrIndX | jsrZp | jsrImm | jsrIndY | jsrZpX | jsrAbsY | jsrAbsX => exact ⟨rfl, rfl⟩
  | jsrAbs _ => exact absurd rfl hmode
  | ldaIndX _ | ldaZp _ | ldaImm _ | ldaAbs _ | ldaIndY _ | ldaZpX _ | ldaAbsY _ | ldaAbsX _ => cases hi

/-- Settles O49, by the next state of each kind of step. -/
theorem programCounterAdvancesOrIsSetByJsr : Obligations.ProgramCounterAdvancesOrIsSetByJsr := by
  refine ⟨fun s hm => ⟨_, step_of_idle hm, rfl⟩, fun s c hm hc => ⟨_, step_of_spent hm hc, rfl⟩,
    fun s c hm hc => ⟨fun hnone => ?_, fun i hf hi => ?_, fun target hf => ?_⟩, fun s v hm => hostAct_of_idle _ hm⟩
  · obtain ⟨e, hd⟩ := not_fetches_iff.mp hnone
    exact ⟨_, step_of_decode_error hm hc hd, rfl⟩
  · obtain hlda | ⟨target, htarget⟩ | ⟨hjsr, hmode⟩ := lda_or_jsrAbs_or_jsr_mode i
    · exact ⟨_, step_of_lda hlda hm hc hf, rfl⟩
    · exact absurd htarget (hi target)
    · rw [(jsr_mode_length_and_cycles s hjsr hmode).1]
      exact ⟨_, step_of_fetches_jsr_mode hjsr hmode hm hc hf, rfl⟩
  · exact ⟨_, step_of_fetches_jsrAbs hm hc hf, rfl⟩

/-- Settles O50: of everything a step can do only the absolute JSR's jump writes SP. -/
theorem stackPointerChangesOnlyByJsr : Obligations.StackPointerChangesOnlyByJsr := by
  intro s t h
  obtain ⟨-, rfl⟩ | ⟨c, -, -, rfl⟩ | ⟨c, -, -, ⟨e, -, rfl⟩ | ⟨i, hf, he⟩⟩ := step_cases h
  · exact .inl rfl
  · exact .inl rfl
  · exact .inl rfl
  · obtain ⟨c', -, ⟨-, hload⟩ | ⟨target, rfl, rfl⟩ | ⟨-, -, rfl⟩⟩ := exec_cases he
    · exact .inl hload.SP
    · exact .inr ⟨⟨target, hf⟩, rfl⟩
    · exact .inl rfl

/-- Settles O53, by the next state of each kind of step with cycles left. -/
theorem stepChargesTheCycleTable : Obligations.StepChargesTheCycleTable := by
  refine fun s c hm hc => ⟨fun i hf hi => ?_, fun i hf hi hmode => ?_, fun hnone => ?_⟩
  · obtain hlda | ⟨target, rfl⟩ | ⟨hjsr, hmode⟩ := lda_or_jsrAbs_or_jsr_mode i
    · exact ⟨_, step_of_lda hlda hm hc hf, rfl⟩
    · exact ⟨_, step_of_fetches_jsrAbs hm hc hf, rfl⟩
    · rw [hjsr] at hi
      exact absurd (hi.resolve_left (by decide)) hmode
  · rw [(jsr_mode_length_and_cycles s hi hmode).2]
    exact ⟨_, _, step_of_fetches_jsr_mode hi hmode hm hc hf, raise_advance_returned _ hm⟩
  · obtain ⟨e, hd⟩ := not_fetches_iff.mp hnone
    exact ⟨_, _, step_of_decode_error hm hc hd, raise_advance_returned _ hm⟩

/-! ### The invariant -/

/-- An idle state meets the invariant where its memory is canonical and its report in range. -/
theorem inv_of_idle {s : State} (hidle : s.mode = .idle) (hmem : s.mem.wf = true)
    (hreport : ∀ r, s.returned = some r → r.inRange) : s.Inv :=
  ⟨hmem, fun _ hm => (nomatch hidle.symm.trans hm), fun _ hm => (nomatch hidle.symm.trans hm), hreport⟩

/-- A running state without a report meets the invariant where its memory is canonical and its count in range. -/
theorem inv_of_running {s : State} {c : Int} (hm : s.mode = .running c) (hmem : s.mem.wf = true) (hlow : -5 ≤ c)
    (hhigh : c < 4294967296) (hnone : s.returned = none) : s.Inv :=
  ⟨hmem, fun _ hm' => by cases hm.symm.trans hm'; exact ⟨hlow, hhigh⟩, fun _ _ => hnone,
    fun _ hr => nomatch hnone.symm.trans hr⟩

/-- An error right after the opcode fetch reports a count of at least 0. -/
theorem raise_advance_inv {s : State} {c : Int} (e : EngineError) (hs : s.Inv) (hm : s.mode = .running c)
    (hc : 0 < c) : (raise e (advance s)).Inv := by
  refine inv_of_idle rfl hs.mem_wf fun r hr => ?_
  cases (raise_advance_returned e hm).symm.trans hr
  have hhigh := (hs.cyc_range c hm).2
  show 0 ≤ c - 1 ∧ c - 1 < 4294967295
  omega

/-- Settles O54: the reset engine is idle, lists no memory cell and holds no report. -/
theorem resetMeetsTheInvariant : Obligations.ResetMeetsTheInvariant :=
  inv_of_idle rfl wf_reset fun _ hr => nomatch (hr : none = some _)

/-- Settles O55: a call ends with Ok at a count of -5 to 0 or with an error after one fetch, and an instruction runs
from a count of at least 1 and charges at most 6. -/
theorem stepKeepsTheInvariant : Obligations.StepKeepsTheInvariant := by
  intro s t hs h
  obtain ⟨-, rfl⟩ | ⟨c, hm, hc, rfl⟩ | ⟨c, hm, hc, ⟨e, -, rfl⟩ | ⟨i, hf, he⟩⟩ := step_cases h
  · exact hs
  · refine inv_of_idle rfl hs.mem_wf fun r hr => ?_
    cases (endCall_returned .ok hm).symm.trans hr
    exact ⟨(hs.cyc_range c hm).1, hc⟩
  · exact raise_advance_inv _ hs hm hc
  · have hnone := hs.no_report_in_call c hm
    obtain ⟨-, hhigh⟩ := hs.cyc_range c hm
    have hadv : (advance s).mode = .running (c - 1) := congrArg (Mode.charge 1) hm
    obtain hi | ⟨target, rfl⟩ | ⟨hi, hmode⟩ := lda_or_jsrAbs_or_jsr_mode i
    · cases he.symm.trans (exec_of_lda hi hadv)
      obtain ⟨hlow, hle⟩ := exec_running_bounds he hadv rfl
      exact inv_of_running rfl hs.mem_wf (by omega) (by omega) hnone
    · cases he.symm.trans (exec_jsrAbs target hadv)
      exact inv_of_running rfl (push16_wf _ (advance s) hs.mem_wf) (by omega) (by omega) hnone
    · cases he.symm.trans (exec_of_jsr_mode hi hmode hadv)
      exact raise_advance_inv _ hs hm hc

/-- Settles O56: the writes keep the mode and the report, `execute` starts with an unsigned 32-bit count. -/
theorem hostActionKeepsTheInvariant : Obligations.HostActionKeepsTheInvariant := by
  intro a s t hs h
  cases hm : s.mode with
  | running c => cases h.symm.trans (hostAct_of_running a hm)
  | idle =>
    cases h.symm.trans (hostAct_of_idle a hm)
    cases a with
    | writeMem addr v => exact inv_of_idle hm (memWrite_wf _ _ _ hs.mem_wf) hs.report_range
    | setA _ | setX _ | setY _ | setPC _ | setSP _ | setFlag _ _ => exact inv_of_idle hm hs.mem_wf hs.report_range
    | reset => exact resetMeetsTheInvariant
    | execute budget =>
      have hbudget := budget.isLt
      exact inv_of_running (c := budget.toNat) rfl hs.mem_wf (by omega) (by omega) rfl

theorem reachable_inv {s : State} (h : Reachable s) : s.Inv := by
  induction h with
  | reset => exact resetMeetsTheInvariant
  | host _ hact ih => exact hostActionKeepsTheInvariant _ _ _ ih hact
  | step _ hstep ih => exact stepKeepsTheInvariant _ _ ih hstep

/-- Settles O57: every reachable state meets the invariant, which bounds both counts. -/
theorem reachableCountsAreBounded : Obligations.ReachableCountsAreBounded := by
  intro s hreach
  have hs := reachable_inv hreach
  refine ⟨fun r hr hok => ?_, fun c hcyc => ?_⟩
  · have hrange := hs.report_range r hr
    rwa [CallReturn.inRange, hok] at hrange
  · obtain ⟨hlow, hhigh⟩ := hs.cyc_range c (cyc_eq_some.mp hcyc)
    exact ⟨hlow, by omega⟩

end Sys2Proof.Machine
end
